-- ==== Sys2Proof/Word.lean ====
section
/-! DEFINITION. The two word types of the block: a byte on the bus and the 24-bit command word. -/

namespace Sys2Proof

/-- One byte: what the eight data lines carry, a register value, an address operand (00_scope.md R6: `DATA_WIDTH` = 8,
`ADDR_PORT_WIDTH` = 8; R7: `u8`). -/
abbrev Byte := BitVec 8

/-- The command word `cmd[23:0]` (30_encoding.md R55). -/
abbrev Word := BitVec 24

end Sys2Proof
end

