-- ==== Sys2Proof/Syntax.lean ====
section
/-! DEFINITION. The commands of the block as typed constructors (30_encoding.md R54), the pseudo-commands of the
surrounding software (30_encoding.md R59, R60; 42_facade_macros.md), and what a host may present. -/

namespace Sys2Proof

/-- A level of one line: `L` is bit value 0, `H` is bit value 1 (00_scope.md R7). -/
inductive Level where
  | L
  | H
  deriving DecidableEq, Repr

/-- The four bus modes, in the document's own order (00_scope.md R9, 30_encoding.md R51). -/
inductive BusMode where
  | inactive
  | read
  | write
  | address
  deriving DecidableEq, Repr

/-- The commands, one constructor per row of the opcode table (30_encoding.md R54, R56). -/
inductive Instr where
  /-- `SETMODE INACTIVE` (40_primitive_ops.md R72). -/
  | setmodeInactive
  /-- `SETMODE READ` (40_primitive_ops.md R71). -/
  | setmodeRead
  /-- `SETMODE WRITE` (40_primitive_ops.md R72). -/
  | setmodeWrite
  /-- `SETMODE ADDRESS` (40_primitive_ops.md R72). -/
  | setmodeAddress
  /-- `WRBUS v` (40_primitive_ops.md R74). -/
  | wrbus (v : Byte)
  /-- `WRREG a, v`; `a` is the address before the clamp (41_register_access.md R80). -/
  | wrreg (a v : Byte)
  /-- `RDREG a` (41_register_access.md R82). -/
  | rdreg (a : Byte)
  /-- `SETRST l` (40_primitive_ops.md R76). -/
  | setrst (l : Level)
  deriving DecidableEq, Repr

/-- `SETMODE m` as the command of the mode `m` (30_encoding.md R54). -/
def setmode : BusMode → Instr
  | .inactive => .setmodeInactive
  | .read => .setmodeRead
  | .write => .setmodeWrite
  | .address => .setmodeAddress

/-- The three channels (42_facade_macros.md R90). -/
inductive Channel where
  | A
  | B
  | C
  deriving DecidableEq, Repr

/-- An EnvelopeFrequency: a tagged 16-bit value (42_facade_macros.md R97). -/
inductive EnvFreq where
  | hertz (h : BitVec 16)
  | beatsPerMinute (b : BitVec 16)
  | integer (n : BitVec 16)
  deriving DecidableEq, Repr

/-- The five builtin envelope shapes the document lists (42_facade_macros.md R99). -/
inductive BuiltinShape where
  | fadeOutHold
  | fadeInHold
  | tooth
  | saw
  | triangle
  deriving DecidableEq, Repr

/-- An EnvelopeShape (42_facade_macros.md R99). -/
inductive EnvShape where
  | builtin (s : BuiltinShape)
  | invertedBuiltin (s : BuiltinShape)
  | rawEnvelope
  | customU8 (x : Byte)
  deriving DecidableEq, Repr

/-- The base letter of a note (42_facade_macros.md R102). -/
inductive Letter where
  | C
  | D
  | E
  | F
  | G
  | A
  | B
  deriving DecidableEq, Repr

/-- The accidental of a note: `NONE`, -2, -1, +1 or +2 (42_facade_macros.md R102). -/
inductive Accidental where
  | noAccidental
  | minus2
  | minus1
  | plus1
  | plus2
  deriving DecidableEq, Repr

/-- A note, with its transposition a number of semitones of the type `T` (42_facade_macros.md R102). `NoteOf ℝ` is the note of the
rule. -/
structure NoteOf (T : Type) where
  letter : Letter
  octave : Int
  accidental : Accidental
  transpose : T
  deriving DecidableEq, Repr

/-- The note a pseudo-command carries as plain data. DESIGN CHOICE (log 13, safe): its transposition is a rational; every note
with a real transposition has the frequency of one of these, so every `PLAYNOTE` can be presented. -/
abbrev Note := NoteOf Rat

/-- The eight pseudo-commands of the Chip facade (30_encoding.md R59, R60). -/
inductive Pseudo where
  /-- `TONE ch, p` (42_facade_macros.md R91). -/
  | tone (ch : Channel) (p : BitVec 16)
  /-- `TONEHZ ch, f` (42_facade_macros.md R93). -/
  | toneHz (ch : Channel) (f : Nat)
  /-- `VOLUME ch, x` (42_facade_macros.md R94). -/
  | volume (ch : Channel) (x : Byte)
  /-- `SETNOISE x` (42_facade_macros.md R95). -/
  | setNoise (x : Byte)
  /-- `SETMIXER x` (42_facade_macros.md R96). -/
  | setMixer (x : Byte)
  /-- `SETENVFREQ ef` (42_facade_macros.md R98). -/
  | setEnvFreq (ef : EnvFreq)
  /-- `SETENVSHAPE es` (42_facade_macros.md R100). -/
  | setEnvShape (es : EnvShape)
  /-- `PLAYNOTE ch, n` (42_facade_macros.md R105). -/
  | playNote (ch : Channel) (n : Note)
  deriving DecidableEq, Repr

/-- What the host presents: a command as its 24-bit word (30_encoding.md R55), or, to the software around the block, a
pseudo-command (30_encoding.md R60). -/
inductive HostCommand where
  | word (w : Word)
  | pseudo (p : Pseudo)
  deriving DecidableEq, Repr

end Sys2Proof
end

