-- ==== Sys2Proof/WellFormed.lean ====
section
/-! DEFINITION. What is well-formed: the operands of `Instr` are exact by their types, so every term of `Instr` is a command;
a 24-bit word is well-formed when it matches a row of the opcode table (30_encoding.md R56, R58). -/

namespace Sys2Proof

/-- One row of spec/opcode_table.json. -/
structure OpcodeRow where
  mnemonic : String
  pattern : Word
  mask : Word
  deriving DecidableEq, Repr

/-- A word matches a row when its bits under the mask are the row's (30_encoding.md R56). -/
def OpcodeRow.accepts (r : OpcodeRow) (w : Word) : Bool := w &&& r.mask == r.pattern

/-- The row of each command, copied from spec/opcode_table.json. -/
def opcodeRow : Instr → OpcodeRow
  | .setmodeInactive => ⟨"SETMODE.INACTIVE", 0x000000, 0xFFFFFF⟩
  | .setmodeRead => ⟨"SETMODE.READ", 0x000001, 0xFFFFFF⟩
  | .setmodeWrite => ⟨"SETMODE.WRITE", 0x000002, 0xFFFFFF⟩
  | .setmodeAddress => ⟨"SETMODE.ADDRESS", 0x000003, 0xFFFFFF⟩
  | .wrbus _ => ⟨"WRBUS", 0x010000, 0xFFFF00⟩
  | .wrreg _ _ => ⟨"WRREG", 0x020000, 0xFF0000⟩
  | .rdreg _ => ⟨"RDREG", 0x030000, 0xFF00FF⟩
  | .setrst _ => ⟨"SETRST", 0x040000, 0xFFFFFE⟩

/-- The eight rows of spec/opcode_table.json, in its order. -/
def opcodeRows : List OpcodeRow :=
  [opcodeRow .setmodeInactive, opcodeRow .setmodeRead, opcodeRow .setmodeWrite, opcodeRow .setmodeAddress,
   opcodeRow (.wrbus 0), opcodeRow (.wrreg 0 0), opcodeRow (.rdreg 0), opcodeRow (.setrst .L)]

/-- A well-formed word matches some row; any other word is illegal (30_encoding.md R58). -/
def wordWellFormed (w : Word) : Bool := opcodeRows.any fun r => r.accepts w

end Sys2Proof
end

