-- ==== Sys2Proof/Decode.lean ====
section
/-! DEFINITION. The decoder of the command word, total over the 2^24 words, and after it the encoder, both from the table of
formats 30_encoding.md R56. -/

namespace Sys2Proof

/-- Why a word is illegal (30_encoding.md R58); the block itself records only the word. -/
inductive Illegal where
  /-- `op` in 0x05..0xFF. -/
  | reservedOpcode
  /-- The field `a` must be 0 in this format and is not. -/
  | addressFieldNotZero
  /-- The part of `d` that must be 0 in this format is not. -/
  | dataFieldNotZero
  deriving DecidableEq, Repr

/-- `op = cmd[23:16]` (30_encoding.md R55). -/
def opField (w : Word) : Byte := w.extractLsb' 16 8

/-- `a = cmd[15:8]` (30_encoding.md R55). -/
def aField (w : Word) : Byte := w.extractLsb' 8 8

/-- `d = cmd[7:0]` (30_encoding.md R55). -/
def dField (w : Word) : Byte := w.extractLsb' 0 8

/-- A word from its three fields, `op` highest (30_encoding.md R55). -/
def ofFields (op a d : Byte) : Word := op ++ a ++ d

/-- Format M: `a` is 0, `d[7:2]` is 0, `d[1:0]` is the mode index of 30_encoding.md R51. -/
def decodeM (a d : Byte) : Except Illegal Instr :=
  if a ≠ 0 then .error .addressFieldNotZero
  else if d = 0x00 then .ok .setmodeInactive
  else if d = 0x01 then .ok .setmodeRead
  else if d = 0x02 then .ok .setmodeWrite
  else if d = 0x03 then .ok .setmodeAddress
  else .error .dataFieldNotZero

/-- Format B: `a` is 0, `d` is the value. -/
def decodeB (a d : Byte) : Except Illegal Instr :=
  if a ≠ 0 then .error .addressFieldNotZero else .ok (.wrbus d)

/-- Format R: `a` is the address, all 256 values legal, `d` the value. -/
def decodeR (a d : Byte) : Except Illegal Instr := .ok (.wrreg a d)

/-- Format A: `a` is the address, `d` is 0. -/
def decodeA (a d : Byte) : Except Illegal Instr :=
  if d ≠ 0 then .error .dataFieldNotZero else .ok (.rdreg a)

/-- Format L: `a` is 0, `d[7:1]` is 0, `d[0]` is the level. -/
def decodeL (a d : Byte) : Except Illegal Instr :=
  if a ≠ 0 then .error .addressFieldNotZero
  else if d = 0x00 then .ok (.setrst .L)
  else if d = 0x01 then .ok (.setrst .H)
  else .error .dataFieldNotZero

/-- The decoder (30_encoding.md R56, R58): every word is one command or illegal. -/
def decode (w : Word) : Except Illegal Instr :=
  if opField w = 0x00 then decodeM (aField w) (dField w)
  else if opField w = 0x01 then decodeB (aField w) (dField w)
  else if opField w = 0x02 then decodeR (aField w) (dField w)
  else if opField w = 0x03 then decodeA (aField w) (dField w)
  else if opField w = 0x04 then decodeL (aField w) (dField w)
  else .error .reservedOpcode

/-- The bit of a level as the `d` field of format L (30_encoding.md R56: 0 = `L`, 1 = `H`). -/
def levelField : Level → Byte
  | .L => 0x00
  | .H => 0x01

/-- The encoder (30_encoding.md R56). -/
def encode : Instr → Word
  | .setmodeInactive => ofFields 0x00 0x00 0x00
  | .setmodeRead => ofFields 0x00 0x00 0x01
  | .setmodeWrite => ofFields 0x00 0x00 0x02
  | .setmodeAddress => ofFields 0x00 0x00 0x03
  | .wrbus v => ofFields 0x01 0x00 v
  | .wrreg a v => ofFields 0x02 a v
  | .rdreg a => ofFields 0x03 a 0x00
  | .setrst l => ofFields 0x04 0x00 (levelField l)

/-- What the decoder reads from an instruction of the opcode table whose low `nbits` bits are those of `w` and whose other
bits are 0. DEDUCED (log 21, safe): the command is presented as ONE 24-bit word (30_encoding.md R55), so the table's bit
numbers are those of `cmd`. A number of more than 24 bits is no command word. -/
def decodeTableWord (nbits w : Nat) : Option Instr :=
  let bits := w % 2 ^ nbits
  if bits < 2 ^ 24 then
    match decode (BitVec.ofNat 24 bits) with
    | .ok i => some i
    | .error _ => none
  else none

end Sys2Proof
end

