-- ==== Sys2Proof/Config.lean ====
section
/-! DEFINITION. What is fixed for one instance of the block (00_scope.md R6), and the free values of the environment. -/

namespace Sys2Proof

/-- The order of the two control-line writes of one mode change (40_primitive_ops.md R72). -/
inductive ControlOrder where
  | bdirFirst
  | bc1First
  deriving DecidableEq, Repr, Inhabited

/-- The parameter `CTL_ORDER` (00_scope.md R6). -/
inductive CtlOrder where
  | bdirFirst
  | bc1First
  | any
  deriving DecidableEq, Repr

/-- The parameter `OBS_GRANULARITY` (00_scope.md R6). -/
inductive Granularity where
  | phase
  | pin
  deriving DecidableEq, Repr

/-- The parameters of one instance of the block that a rule reads (00_scope.md R6). They are no state: no step writes them.
`LEVELS` and `BC2_LEVEL` are definitions of Machine/Levels.lean. -/
structure Params where
  clockHz : Nat
  hasResetLine : Bool
  ctlOrder : CtlOrder
  obsGranularity : Granularity
  deriving DecidableEq, Repr

namespace Config

/-- One less than the open parameter `CLOCK_HZ`, which is a natural number greater than 0 (00_scope.md R6). A free value: no
proof sees it (log 4). -/
opaque clockHzPred : Nat

/-- The open parameter `CLOCK_HZ` (00_scope.md R6; log 4, safe). -/
def clockHz : Nat := clockHzPred + 1

/-- The open parameter `HAS_RESET_LINE` (00_scope.md R6; log 4, safe). A free value. -/
opaque hasResetLine : Bool

/-- The answer of the pin layer to the n-th pin write since reset, where State lists none (40_primitive_ops.md R70: a draw
from the environment; log 3, safe). A free value. -/
opaque pinOk : Nat → Bool

/-- The n-th choice of control-line order since reset, where State lists none (40_primitive_ops.md R72, `CTL_ORDER = ANY`;
log 2, safe). A free value. -/
opaque controlOrder : Nat → ControlOrder

/-- The parameters of this hardware: the two open ones left open, the other two at the spec's defaults (00_scope.md R6;
log 20). -/
def params : Params :=
  { clockHz := clockHz, hasResetLine := hasResetLine, ctlOrder := .any, obsGranularity := .phase }

end Config

end Sys2Proof
end

