-- ==== Sys2Proof/Machine/State.lean ====
section
/-! DEFINITION. The state of the block as plain data (10_state.md), its reset value, and the reasons a step can stop. -/

namespace Sys2Proof.Machine

/-- A value or `U`, the spec's "undefined", which is no value and is never turned into one (00_scope.md R7). -/
inductive UVal (α : Type) where
  | U
  | known (a : α)
  deriving DecidableEq, Repr

/-- The content of a one-bit output latch (10_state.md R10). -/
abbrev Latch := UVal Level

/-- The pins, each with an output latch of the same name (10_state.md R10). -/
inductive Pin where
  | d0
  | d1
  | d2
  | d3
  | d4
  | d5
  | d6
  | d7
  | bdir
  | bc1
  | rst
  deriving DecidableEq, Repr

/-- The output latches (10_state.md R10). `rst` stands for a line only when `Params.hasResetLine`; without it no command
reaches the latch and it keeps its reset value. -/
structure Latches where
  d0 : Latch
  d1 : Latch
  d2 : Latch
  d3 : Latch
  d4 : Latch
  d5 : Latch
  d6 : Latch
  d7 : Latch
  bdir : Latch
  bc1 : Latch
  rst : Latch
  deriving DecidableEq, Repr

/-- One successful pin write (10_state.md R15). -/
structure Event where
  pin : Pin
  level : Level
  deriving DecidableEq, Repr

/-- What an operation that is not performed is (60_exceptions.md R110). -/
inductive UnsupportedCause where
  | readMode
  | registerRead
  | noResetLine
  | rawEnvelope
  deriving DecidableEq, Repr

/-- Which contract of a pseudo-command the caller broke (60_exceptions.md R110). -/
inductive ContractCause where
  | zeroFrequency
  | periodOverflow
  deriving DecidableEq, Repr

/-- The fault records the register `S.fault` can hold (10_state.md R16, 60_exceptions.md R110). -/
inductive BlockFault where
  | unsupported (cause : UnsupportedCause)
  | pinFault (p : Pin)
  | illegalCommand (word : Word)
  | contractViolation (cause : ContractCause)
  deriving DecidableEq, Repr

/-- One pin write of a command's list (10_state.md R13). `closes` marks the second write of a mode change, the one that
completes it (20_memory.md R42). -/
structure PinJob where
  pin : Pin
  level : Level
  closes : Bool
  deriving DecidableEq, Repr

/-- The sequencer phase (10_state.md R13). Inside `RUN(k)` stand what is left of the pin-write list fixed at acceptance and
the mode the control lines showed before the mode change in progress, which the observer needs (20_memory.md R42). DESIGN
CHOICE (log 8, safe): they are kept inside the phase, so that an idle block holds no half-done command. -/
inductive Phase where
  | idle
  | run (k : Nat) (todo : List PinJob) (before : UVal BusMode)
  deriving DecidableEq, Repr

/-- The device register space as the block has written it: cells (address, byte); an unlisted address reads `U`
(10_state.md R17, 20_memory.md R30; log 11). -/
abbrev Memory := List Host.Cell

/-- The number of device registers (00_scope.md R6: `REG_COUNT`). -/
def regCount : Nat := 16

/-- Every address is above `lo` and the addresses rise strictly. -/
def Memory.sortedAbove (lo : Nat) : Memory → Bool
  | [] => true
  | c :: rest => decide (lo < c.1) && Memory.sortedAbove c.1 rest

/-- The canonical form of the device register space: addresses strictly rising and below 16 (20_memory.md R30). -/
def Memory.wf (m : Memory) : Bool :=
  (match m with
    | [] => true
    | c :: rest => Memory.sortedAbove c.1 rest)
  && m.all fun c => decide (c.1 < regCount)

/-- The ghost device image `S.dev` (10_state.md R17). -/
structure Dev where
  latch : UVal (BitVec 4)
  regs : Memory
  hazard : Bool
  deriving DecidableEq, Repr

/-- The state of the block (10_state.md R10 to R19), its parameters (00_scope.md R6), and the inputs its steps read
(10_state.md R18; logs 2, 3, 5). -/
structure State where
  /-- The parameters of this instance; no step writes them (00_scope.md R6). -/
  params : Params
  /-- The output latches (10_state.md R10). -/
  latches : Latches
  /-- The sequencer phase (10_state.md R13). -/
  phase : Phase
  /-- The sticky fault register (10_state.md R16). -/
  fault : Option BlockFault
  /-- The ghost list of successful pin writes, oldest first (10_state.md R15). -/
  trace : List Event
  /-- The ghost device image (10_state.md R17). -/
  dev : Dev
  /-- MODEL'S OWN: the commands the host will present, oldest first (log 5). -/
  commands : List HostCommand
  /-- MODEL'S OWN: the pin layer's answers to the next pin writes; past its end they are `Config.pinOk` (log 3). -/
  pinAnswers : List Bool
  /-- MODEL'S OWN: how many pin writes have been attempted (log 3). -/
  pinDraws : Nat
  /-- MODEL'S OWN: the choices of control-line order at the next mode changes under `CTL_ORDER = ANY`; past its end they are
  `Config.controlOrder` (log 2). -/
  orderChoices : List ControlOrder
  /-- MODEL'S OWN: how many such choices have been drawn (log 2). -/
  orderDraws : Nat
  deriving DecidableEq, Repr

/-- Why a step stops. No command ends here: the faults of the spec are recorded in `State.fault` by a NEXT state
(60_exceptions.md R114; log 7). -/
inductive Fault where
  /-- A command or a step in a block whose fault register holds a record: stuck (60_exceptions.md R115). Raised by every
  command and by `step`. Safe: the model stops where the block has no step. -/
  | blockFaulted
  /-- A command presented while another is in progress: not accepted (10_state.md R13). Raised by every command. Safe. -/
  | commandInProgress
  /-- An idle block with no command presented: no step (60_exceptions.md R112, 70_reset_and_hazards.md R131, R142). Raised by
  `step`. Safe. -/
  | awaitingCommand
  deriving DecidableEq, Repr

/-- Why an instruction has no meaning. -/
inductive Refusal where
  /-- The instruction is not modelled; raised by an arm of `exec`, by no meaning. Safe. No arm of this model uses it. -/
  | notModelled (mnemonic : String)
  deriving DecidableEq, Repr

/-- All latches `U` (10_state.md R19). -/
def Latches.reset : Latches :=
  { d0 := .U, d1 := .U, d2 := .U, d3 := .U, d4 := .U, d5 := .U, d6 := .U, d7 := .U, bdir := .U, bc1 := .U, rst := .U }

/-- The device image after reset (10_state.md R19). -/
def Dev.reset : Dev := { latch := .U, regs := [], hazard := false }

/-- The block right after it has acquired its pins (10_state.md R19, 70_reset_and_hazards.md R130). The fields after `dev`
are the model's own: nothing presented, nothing answered, nothing drawn (DESIGN CHOICE, logs 2, 3, 5). -/
def State.reset : State :=
  { params := Config.params, latches := Latches.reset, phase := .idle, fault := none, trace := [], dev := Dev.reset,
    commands := [], pinAnswers := [], pinDraws := 0, orderChoices := [], orderDraws := 0 }

end Sys2Proof.Machine
end

