-- ==== Sys2Proof/Machine/Levels.lean ====
section
/-! DEFINITION. The output-side encodings of the block: the table `LEVELS` of mode level pairs, the constant BC2, and the bits
of a byte on the data lines (30_encoding.md R50, R52). -/

namespace Sys2Proof.Machine

/-- The table `LEVELS`: the pair (BDIR, BC1) of each mode (30_encoding.md R50). PRESUMED (log 1, unsafe): the document prints
no pair; the spec takes these from general knowledge. -/
def levels : BusMode → Level × Level
  | .inactive => (.L, .L)
  | .read => (.L, .H)
  | .write => (.H, .L)
  | .address => (.H, .H)

/-- `BC2_LEVEL`: the constant level of BC2, which is no pin of the block (00_scope.md R6). PRESUMED (log 1, unsafe). -/
def bc2Level : Level := .H

/-- The four modes, in the order of 30_encoding.md R51. -/
def allModes : List BusMode := [.inactive, .read, .write, .address]

/-- The mode whose level pair is (b, c): the first found in `allModes`; `LEVELS` is onto, so there is one (10_state.md R11,
30_encoding.md R50). -/
def modeOfLevels (b c : Level) : UVal BusMode :=
  match allModes.find? fun m => levels m == (b, c) with
  | some m => .known m
  | none => .U

/-- The mode index of the command word (30_encoding.md R51). -/
def modeIndex : BusMode → Nat
  | .inactive => 0
  | .read => 1
  | .write => 2
  | .address => 3

/-- `lvl(b)`: bit 0 is `L`, bit 1 is `H` (00_scope.md R7). -/
def lvl (b : Bool) : Level := if b then .H else .L

/-- `bit(l)`, the inverse of `lvl` (00_scope.md R7). -/
def levelBit : Level → BitVec 1
  | .L => 0
  | .H => 1

/-- The byte on eight data lines at the given levels, line 0 least significant (10_state.md R11, 20_memory.md R32). -/
def byteOfLevels (l0 l1 l2 l3 l4 l5 l6 l7 : Level) : Byte :=
  levelBit l7 ++ levelBit l6 ++ levelBit l5 ++ levelBit l4 ++ levelBit l3 ++ levelBit l2 ++ levelBit l1 ++ levelBit l0

end Sys2Proof.Machine
end

