-- ==== Sys2Proof/Machine/Operands.lean ====
section
/-! DEFINITION. The operand forms of the commands: the clamped address, the pin-write list of a byte, of a mode change and of a
whole register write (20_memory.md R34, 30_encoding.md R52, R53, 40_primitive_ops.md R72, R74, 41_register_access.md R80). -/

namespace Sys2Proof.Machine

/-- The register a `WRREG` address reaches: `min(a, 15)`, by saturation (20_memory.md R34). -/
def clampAddr (a : Byte) : BitVec 4 := BitVec.ofNat 4 (min a.toNat 15)

/-- The byte of the address phase: the clamped address zero-extended (30_encoding.md R53). -/
def addressByte (a : Byte) : Byte := (clampAddr a).setWidth 8

/-- A write of a line that is no part of a mode change. -/
def plainJob (p : Pin) (l : Level) : PinJob := { pin := p, level := l, closes := false }

/-- The eight pin writes of `WRBUS v`: line `i` gets bit `i`, `D0` first (40_primitive_ops.md R74, 30_encoding.md R52). -/
def busJobs (v : Byte) : List PinJob :=
  [plainJob .d0 (lvl (v.getLsbD 0)), plainJob .d1 (lvl (v.getLsbD 1)), plainJob .d2 (lvl (v.getLsbD 2)),
   plainJob .d3 (lvl (v.getLsbD 3)), plainJob .d4 (lvl (v.getLsbD 4)), plainJob .d5 (lvl (v.getLsbD 5)),
   plainJob .d6 (lvl (v.getLsbD 6)), plainJob .d7 (lvl (v.getLsbD 7))]

/-- The two pin writes of a change to mode `m`, in the chosen order; the second completes it (40_primitive_ops.md R72). -/
def modeJobs (m : BusMode) : ControlOrder → List PinJob
  | .bdirFirst =>
    [{ pin := .bdir, level := (levels m).1, closes := false }, { pin := .bc1, level := (levels m).2, closes := true }]
  | .bc1First =>
    [{ pin := .bc1, level := (levels m).2, closes := false }, { pin := .bdir, level := (levels m).1, closes := true }]

/-- The pin-write list of `WRREG a, v`, steps 2 to 7 of 41_register_access.md R80, with one order for each of its four mode
changes. -/
def regJobs (a v : Byte) (o1 o2 o3 o4 : ControlOrder) : List PinJob :=
  modeJobs .address o1 ++ busJobs (addressByte a) ++ modeJobs .inactive o2
    ++ modeJobs .write o3 ++ busJobs v ++ modeJobs .inactive o4

/-- The event a pin write leaves in the trace (40_primitive_ops.md R70). -/
def jobEvent (j : PinJob) : Event := { pin := j.pin, level := j.level }

end Sys2Proof.Machine
end

