-- ==== Sys2Proof/Machine/Flags.lean ====
section
/-! DEFINITION. The block has no flags and no condition codes (10_state.md R14), so no flag is computed here. What stands here
is what is computed FROM the latches instead: the bus byte and the mode, derived views that are no state (10_state.md R11). -/

namespace Sys2Proof.Machine

/-- The latch of a pin (10_state.md R10). -/
def getLatch (l : Latches) : Pin → Latch
  | .d0 => l.d0
  | .d1 => l.d1
  | .d2 => l.d2
  | .d3 => l.d3
  | .d4 => l.d4
  | .d5 => l.d5
  | .d6 => l.d6
  | .d7 => l.d7
  | .bdir => l.bdir
  | .bc1 => l.bc1
  | .rst => l.rst

/-- One latch written, the others kept (10_state.md R10, R12). -/
def setLatch (l : Latches) (p : Pin) (x : Latch) : Latches :=
  match p with
  | .d0 => { l with d0 := x }
  | .d1 => { l with d1 := x }
  | .d2 => { l with d2 := x }
  | .d3 => { l with d3 := x }
  | .d4 => { l with d4 := x }
  | .d5 => { l with d5 := x }
  | .d6 => { l with d6 := x }
  | .d7 => { l with d7 := x }
  | .bdir => { l with bdir := x }
  | .bc1 => { l with bc1 := x }
  | .rst => { l with rst := x }

/-- `bus(S)`: the byte on the data lines when all eight latches hold a level, else `U` (10_state.md R11). -/
def busOf (l : Latches) : UVal Byte :=
  match l.d0, l.d1, l.d2, l.d3, l.d4, l.d5, l.d6, l.d7 with
  | .known l0, .known l1, .known l2, .known l3, .known l4, .known l5, .known l6, .known l7 =>
    .known (byteOfLevels l0 l1 l2 l3 l4 l5 l6 l7)
  | _, _, _, _, _, _, _, _ => .U

/-- `mode(S)`: the mode whose level pair the control latches hold, or `U` when either is `U` (10_state.md R11). -/
def modeOf (l : Latches) : UVal BusMode :=
  match l.bdir, l.bc1 with
  | .known b, .known c => modeOfLevels b c
  | _, _ => .U

end Sys2Proof.Machine
end

