-- ==== Sys2Proof/Machine/Ops.lean ====
section
/-! DEFINITION. The named operations over the state: draws of the environment, the device register space, the ghost observer,
fault entry, the pin write, and running a command's pin-write list. -/

namespace Sys2Proof.Machine

/-! ### Draws of the environment -/

/-- The pin layer's answer to the k-th pin write from now (k = 0 is the next): the listed one, else the free value
(40_primitive_ops.md R70; log 3). -/
def pinAnswer (s : State) (k : Nat) : Bool :=
  match s.pinAnswers[k]? with
  | some b => b
  | none => Config.pinOk (s.pinDraws + k)

/-- The state once the next answer has been drawn. -/
def drawPin (s : State) : State := { s with pinAnswers := s.pinAnswers.tail, pinDraws := s.pinDraws + 1 }

/-- The order of control-line writes at the k-th mode change from now: fixed by `CTL_ORDER`, or under `ANY` the listed
choice, else the free value (40_primitive_ops.md R72; log 2). -/
def controlOrder (s : State) (k : Nat) : ControlOrder :=
  match s.params.ctlOrder with
  | .bdirFirst => .bdirFirst
  | .bc1First => .bc1First
  | .any =>
    match s.orderChoices[k]? with
    | some o => o
    | none => Config.controlOrder (s.orderDraws + k)

/-- The state once n choices have been drawn; a fixed order draws none. -/
def drawOrders (s : State) (n : Nat) : State :=
  match s.params.ctlOrder with
  | .any => { s with orderChoices := s.orderChoices.drop n, orderDraws := s.orderDraws + n }
  | _ => s

/-! ### The device register space (10_state.md R17, 20_memory.md R30) -/

/-- What the space holds at an address; an unlisted address reads `U`. -/
def memRead : Memory → Nat → UVal Byte
  | [], _ => .U
  | c :: rest, a => if a = c.1 then .known c.2 else memRead rest a

/-- The space with the cell of one address taken out. -/
def memErase : Memory → Nat → Memory
  | [], _ => []
  | c :: rest, a => if a = c.1 then rest else c :: memErase rest a

/-- The space with a byte at one address, in order. -/
def memInsert : Memory → Nat → Byte → Memory
  | [], a, v => [(a, v)]
  | c :: rest, a, v => if a < c.1 then (a, v) :: c :: rest else if a = c.1 then (a, v) :: rest else c :: memInsert rest a v

/-- `dev.R[a] <- v` with `v` a byte or `U`; writing `U` takes the cell out. -/
def memWrite (m : Memory) (a : BitVec 4) : UVal Byte → Memory
  | .known v => memInsert m a.toNat v
  | .U => memErase m a.toNat

/-! ### The ghost device observer (20_memory.md R41, R42). PRESUMED (log 10, unsafe): the device-side rules are from general
knowledge. -/

/-- Clause 4 of `dev_edge`: the address a byte latches; `U` when the byte is `U` or its upper four bits are not zero. -/
def latchOfBus : UVal Byte → UVal (BitVec 4)
  | .U => .U
  | .known b => if b.extractLsb' 4 4 = 0 then .known (b.extractLsb' 0 4) else .U

/-- Clauses 2 and 3 of `dev_edge`: READ is entered, or ADDRESS and WRITE are adjacent. -/
def forbiddenEdge (old new : BusMode) : Bool :=
  new == .read || (old == .address && new == .write) || (old == .write && new == .address)

/-- Clause 5 of `dev_edge`: the data phase ends with `b` on the bus. -/
def commitData (d : Dev) (b : UVal Byte) : Dev :=
  match d.latch with
  | .U => { d with regs := [] }
  | .known a => { d with regs := memWrite d.regs a b }

/-- Clauses 2 to 5 of `dev_edge`, between two different modes. -/
def devEdgeKnown (d : Dev) (old : BusMode) (b : UVal Byte) (new : BusMode) : Dev :=
  let d1 := { d with hazard := d.hazard || forbiddenEdge old new }
  match old with
  | .address => { d1 with latch := latchOfBus b }
  | .write => commitData d1 b
  | .inactive => d1
  | .read => d1

/-- `dev_edge(dev, m_old, b, m_new)` (20_memory.md R41). -/
def devEdge (d : Dev) (old : UVal BusMode) (b : UVal Byte) (new : UVal BusMode) : Dev :=
  match old, new with
  | .known mo, .known mn => if mo = mn then d else devEdgeKnown d mo b mn
  | _, _ => d

/-- The device image once the device has been held in reset (20_memory.md R42). -/
def devReset (d : Dev) : Dev := { d with latch := .U, regs := [] }

/-- `MemWrite(addr, 1, v)`: the net effect of one register write on the device image (00_scope.md R8, 20_memory.md R42). -/
def devStore (d : Dev) (addr : BitVec 4) (v : Byte) : Dev :=
  { d with latch := .known addr, regs := memWrite d.regs addr (.known v) }

/-- When the observer runs (20_memory.md R42). `pre` are the latches before the pin write `j`, `post` after it, `before` is
the mode before the mode change in progress. -/
def observe (g : Granularity) (d : Dev) (before : UVal BusMode) (pre post : Latches) (j : PinJob) : Dev :=
  match j.pin with
  | .bdir | .bc1 =>
    match g with
    | .pin => devEdge d (modeOf pre) (busOf post) (modeOf post)
    | .phase => if j.closes then devEdge d before (busOf post) (modeOf post) else d
  | .rst =>
    match j.level with
    | .L => devReset d
    | .H => d
  | .d0 | .d1 | .d2 | .d3 | .d4 | .d5 | .d6 | .d7 => d

/-! ### Fault codes and fault entry (60_exceptions.md R110, R114) -/

/-- The code of a fault (60_exceptions.md R110). No rule of the block reads it. -/
def faultCode : BlockFault → Nat
  | .unsupported _ => 1
  | .pinFault _ => 2
  | .illegalCommand _ => 3
  | .contractViolation _ => 4

/-- `raise F`: the fault register takes the record and the phase goes idle; everything else keeps its value. There is no
handler and no return (60_exceptions.md R115). -/
def raiseFault (f : BlockFault) (s : State) : State := { s with fault := some f, phase := .idle }

/-- `raise PinFault(p)`: also the latch of the failed pin becomes `U` (40_primitive_ops.md R70). -/
def raisePinFault (p : Pin) (s : State) : State :=
  raiseFault (.pinFault p) { s with latches := setLatch s.latches p .U }

/-! ### The pin write and the sequencer (40_primitive_ops.md R70, 10_state.md R13) -/

/-- A successful `PinWrite`: the latch, the event, the observer, the phase. `rest` is what the command still has to write; when
nothing is left the command is complete. -/
def commitPin (j : PinJob) (k : Nat) (rest : List PinJob) (before : UVal BusMode) (s : State) : State :=
  let post := setLatch s.latches j.pin (.known j.level)
  { s with
    latches := post
    trace := s.trace ++ [jobEvent j]
    dev := observe s.params.obsGranularity s.dev before s.latches post j
    phase := match rest with
      | [] => .idle
      | _ :: _ => .run (k + 1) rest (if j.closes then modeOf post else before) }

/-- One step of a running command: one pin write, drawn, done or failed (40_primitive_ops.md R70). DESIGN CHOICE (log 19, safe):
a running phase with nothing left to write, which no command leaves, is completed. -/
def pinStep (s : State) : State :=
  match s.phase with
  | .idle => s
  | .run _ [] _ => { s with phase := .idle }
  | .run k (j :: rest) before =>
    if pinAnswer s 0 then commitPin j k rest before (drawPin s) else raisePinFault j.pin (drawPin s)

/-- `n` steps of the sequencer; an idle block stays as it is. -/
def pinSteps : Nat → State → State
  | 0, s => s
  | n + 1, s => pinSteps n (pinStep s)

/-- Acceptance of a command with pin writes: its list is fixed and the phase is `RUN(0)` (10_state.md R13). -/
def load (jobs : List PinJob) (s : State) : State := { s with phase := .run 0 jobs (modeOf s.latches) }

/-- A running command taken to its end, complete or faulted (60_exceptions.md R120: a command, once accepted, runs all its pin
writes before another is accepted). -/
def complete (s : State) : State :=
  match s.phase with
  | .idle => s
  | .run _ todo _ => pinSteps todo.length s

/-- What a command does to the block that is presented with it: nothing in a faulted block (60_exceptions.md R115) and nothing
while another command runs (10_state.md R13); otherwise its effect. -/
def command (effect : State → State) (s : State) : Host.Outcome State Fault Refusal :=
  match s.fault with
  | some _ => .fault .blockFaulted
  | none =>
    match s.phase with
    | .run _ _ _ => .fault .commandInProgress
    | .idle => .next (effect s)

end Sys2Proof.Machine
end

