-- ==== Sys2Proof/Machine/BusControl.lean ====
section
/-! DEFINITION. The BusControlDecoder: `SETMODE` in its four modes (40_primitive_ops.md R71, R72). -/

namespace Sys2Proof.Machine

/-- Acceptance of `SETMODE m` for a mode that is driven: the order is drawn and the two pin writes are fixed
(40_primitive_ops.md R72). -/
def startSetMode (m : BusMode) (s : State) : State := load (modeJobs m (controlOrder s 0)) (drawOrders s 1)

/-- Acceptance of `SETMODE READ`: `Unsupported(ReadMode)` before any pin write (40_primitive_ops.md R71). -/
def startSetModeRead (s : State) : State := raiseFault (.unsupported .readMode) s

/-- `SETMODE INACTIVE` (40_primitive_ops.md R72). -/
def execSetmodeInactive (s : State) : Host.Outcome State Fault Refusal :=
  command (fun s => complete (startSetMode .inactive s)) s

/-- `SETMODE READ` (40_primitive_ops.md R71). -/
def execSetmodeRead (s : State) : Host.Outcome State Fault Refusal :=
  command (fun s => complete (startSetModeRead s)) s

/-- `SETMODE WRITE` (40_primitive_ops.md R72). -/
def execSetmodeWrite (s : State) : Host.Outcome State Fault Refusal :=
  command (fun s => complete (startSetMode .write s)) s

/-- `SETMODE ADDRESS` (40_primitive_ops.md R72). -/
def execSetmodeAddress (s : State) : Host.Outcome State Fault Refusal :=
  command (fun s => complete (startSetMode .address s)) s

end Sys2Proof.Machine
end

