-- ==== Sys2Proof/Machine/OutputBus.lean ====
section
/-! DEFINITION. The OutputBus: `WRBUS` (40_primitive_ops.md R74). -/

namespace Sys2Proof.Machine

/-- Acceptance of `WRBUS v` (40_primitive_ops.md R74). -/
def startWrbus (v : Byte) (s : State) : State := load (busJobs v) s

/-- `WRBUS v` (40_primitive_ops.md R74). -/
def execWrbus (v : Byte) (s : State) : Host.Outcome State Fault Refusal :=
  command (fun s => complete (startWrbus v s)) s

end Sys2Proof.Machine
end

