-- ==== Sys2Proof/Machine/RegisterFile.lean ====
section
/-! DEFINITION. The RegisterFile accessor: `WRREG` and `RDREG` (41_register_access.md R80, R82). -/

namespace Sys2Proof.Machine

/-- Acceptance of `WRREG a, v`: the four orders are drawn and the 24 pin writes are fixed, whatever the operands and the state
(41_register_access.md R80, R83). DESIGN CHOICE (log 9, safe): the orders are drawn at acceptance. -/
def startWrreg (a v : Byte) (s : State) : State :=
  load (regJobs a v (controlOrder s 0) (controlOrder s 1) (controlOrder s 2) (controlOrder s 3)) (drawOrders s 4)

/-- Acceptance of `RDREG a`: `Unsupported(RegisterRead)` before any pin write; `a` is not examined
(41_register_access.md R82). -/
def startRdreg (_a : Byte) (s : State) : State := raiseFault (.unsupported .registerRead) s

/-- `WRREG a, v` (41_register_access.md R80). -/
def execWrreg (a v : Byte) (s : State) : Host.Outcome State Fault Refusal :=
  command (fun s => complete (startWrreg a v s)) s

/-- `RDREG a` (41_register_access.md R82). -/
def execRdreg (a : Byte) (s : State) : Host.Outcome State Fault Refusal :=
  command (fun s => complete (startRdreg a s)) s

end Sys2Proof.Machine
end

