-- ==== Sys2Proof/Machine/ResetLine.lean ====
section
/-! DEFINITION. The optional device reset line: `SETRST` (40_primitive_ops.md R76). It resets the device, not the block
(70_reset_and_hazards.md R132). -/

namespace Sys2Proof.Machine

/-- Acceptance of `SETRST l`: `Unsupported(NoResetLine)` when the line does not exist, else one pin write
(40_primitive_ops.md R76). -/
def startSetrst (l : Level) (s : State) : State :=
  if s.params.hasResetLine then load [plainJob .rst l] s else raiseFault (.unsupported .noResetLine) s

/-- `SETRST l` (40_primitive_ops.md R76). -/
def execSetrst (l : Level) (s : State) : Host.Outcome State Fault Refusal :=
  command (fun s => complete (startSetrst l s)) s

end Sys2Proof.Machine
end

