-- ==== Sys2Proof/Machine/Dispatch.lean ====
section
/-! DEFINITION. One arm per command (30_encoding.md R54): its meaning, the whole command in one transition
(10_state.md R13, last paragraph). -/

namespace Sys2Proof.Machine

def exec (i : Instr) (s : State) : Host.Outcome State Fault Refusal :=
  match i with
  | .setmodeInactive => Sys2Proof.Machine.execSetmodeInactive s
  | .setmodeRead => Sys2Proof.Machine.execSetmodeRead s
  | .setmodeWrite => Sys2Proof.Machine.execSetmodeWrite s
  | .setmodeAddress => Sys2Proof.Machine.execSetmodeAddress s
  | .wrbus v => Sys2Proof.Machine.execWrbus v s
  | .wrreg a v => Sys2Proof.Machine.execWrreg a v s
  | .rdreg a => Sys2Proof.Machine.execRdreg a s
  | .setrst l => Sys2Proof.Machine.execSetrst l s

end Sys2Proof.Machine
end

