-- ==== Sys2Proof/Machine/RegisterMap.lean ====
section
/-! DEFINITION. The device register map (20_memory.md R31, 42_facade_macros.md R90). The block does not read it; the
pseudo-commands are defined by it. What the document leaves unsaid about a register (91_not_in_source.md N9, N10, N11) is not
said here either. UNVERIFIED (log 16, unsafe): its numbers are copied from the spec, which has no second source for them. -/

namespace Sys2Proof.Machine

/-- The numeric value of a channel (42_facade_macros.md R90). -/
def channelIndex : Channel → Nat
  | .A => 0
  | .B => 1
  | .C => 2

/-- The fine tone-period register of a channel: `2*ch` (42_facade_macros.md R90). -/
def toneFineReg (ch : Channel) : Byte := BitVec.ofNat 8 (2 * channelIndex ch)

/-- The rough tone-period register of a channel: `2*ch + 1` (42_facade_macros.md R90). -/
def toneRoughReg (ch : Channel) : Byte := BitVec.ofNat 8 (2 * channelIndex ch + 1)

/-- The level register of a channel: `8 + ch` (42_facade_macros.md R90). -/
def levelReg (ch : Channel) : Byte := BitVec.ofNat 8 (8 + channelIndex ch)

def noiseReg : Byte := 6
def mixerReg : Byte := 7
def envFineReg : Byte := 11
def envRoughReg : Byte := 12
def envShapeReg : Byte := 13
def portAReg : Byte := 14
def portBReg : Byte := 15

/-- The bits of each register the document gives a meaning to (20_memory.md R31). -/
def meaningfulBits (r : BitVec 4) : Byte :=
  if r = 1 ∨ r = 3 ∨ r = 5 then 0x0F
  else if r = 6 ∨ r = 8 ∨ r = 9 ∨ r = 10 then 0x1F
  else 0xFF

/-- The 12-bit tone period two registers hold: `fine` is bits 7..0, bits 3..0 of `rough` are bits 11..8. -/
def tonePeriodOf (fine rough : Byte) : BitVec 12 := rough.extractLsb' 0 4 ++ fine

/-- The 16-bit envelope period of registers 11 and 12. -/
def envPeriodOf (fine rough : Byte) : BitVec 16 := rough ++ fine

/-- The 5-bit noise frequency of register 6. -/
def noiseOf (x : Byte) : BitVec 5 := x.extractLsb' 0 5

/-- Mixer bits 0 to 2, active low: tone of a channel enabled. -/
def mixerToneEnabled (x : Byte) (ch : Channel) : Bool := !x.getLsbD (channelIndex ch)

/-- Mixer bits 3 to 5, active low: noise of a channel enabled. -/
def mixerNoiseEnabled (x : Byte) (ch : Channel) : Bool := !x.getLsbD (3 + channelIndex ch)

/-- Mixer bits 6 and 7: I/O port direction; which bit is which port is not stated (91_not_in_source.md N9). -/
def mixerPortDirection (x : Byte) : BitVec 2 := x.extractLsb' 6 2

/-- Bit 4 of a level register: mode select fixed or variable; which value selects which is not stated
(91_not_in_source.md N10). -/
def levelModeBit (x : Byte) : Bool := x.getLsbD 4

/-- Bits 3 to 0 of a level register: the fixed level. -/
def levelFixed (x : Byte) : BitVec 4 := x.extractLsb' 0 4

/-- The frequency of a tone period, `clock / (16 * TP)` (42_facade_macros.md R92). No command computes it. The formula gives no
value at period 0, and R91 calls that encoding valid without giving its rate: `U` there (log 22). -/
def toneFrequency (clock : Nat) (tp : BitVec 12) : UVal Rat :=
  if tp = 0 then .U else .known ((clock : Rat) / (16 * tp.toNat : Nat))

end Sys2Proof.Machine
end

