-- ==== Sys2Proof/Machine/Notes.lean ====
section
/-! DEFINITION. The encoder `note_hz` (42_facade_macros.md R102 to R104), computed exactly on the natural numbers: the rounded
power is found by comparing powers of integers. -/

namespace Sys2Proof.Machine

/-- Base letter offsets in semitones from A (42_facade_macros.md R103). PRESUMED (log 14, unsafe): D, E, F and G are the spec's
general knowledge. -/
def letterOffset : Letter → Int
  | .C => -9
  | .D => -7
  | .E => -5
  | .F => -4
  | .G => -2
  | .A => 0
  | .B => 2

/-- The accidental as a number of semitones (42_facade_macros.md R102). -/
def accidentalOffset : Accidental → Int
  | .noAccidental => 0
  | .minus2 => -2
  | .minus1 => -1
  | .plus1 => 1
  | .plus2 => 2

/-- `clamp(octave, 0, 14)` (42_facade_macros.md R102). -/
def clampOctave (o : Int) : Int := min (max o 0) 14

/-- The whole semitones of `distance`: the letter, the accidental and the octave (42_facade_macros.md R104). -/
def noteSemitones {T : Type} (n : NoteOf T) : Int :=
  letterOffset n.letter + accidentalOffset n.accidental + (clampOctave n.octave - 4) * 12

/-- `f` is `note_hz` of a note with a real transposition, as 42_facade_macros.md R104 writes it; the power is positive, so a tie
goes away from zero. -/
def isNoteHz (n : NoteOf ℝ) (f : Nat) : Prop :=
  (f : ℤ) = round (440 * (2 : ℝ) ^ (((noteSemitones n : ℝ) + n.transpose) / 12))

/-- `distance` in semitones from A4 (42_facade_macros.md R104). -/
def noteDistance (n : Note) : Rat := (noteSemitones n : Rat) + n.transpose

/-- The greatest number below `acc + 2^bits`, from `acc` on, that `fits`, bit by bit from the top, for a `fits` that holds of
every smaller number too. -/
def searchBits (fits : Nat → Bool) : Nat → Nat → Nat
  | 0, acc => acc
  | b + 1, acc => searchBits fits b (if fits (acc + 2 ^ b) then acc + 2 ^ b else acc)

/-- `n - 1/2 ≤ 440 * 2^(p/e)` without roots: `(2n - 1)^e * 2^(-p) ≤ 880^e * 2^p`, each power of 2 on the side where its exponent
is not negative. -/
def roundsUpTo (p : Int) (e n : Nat) : Bool :=
  n == 0 || decide ((2 * n - 1) ^ e * 2 ^ (-p).toNat ≤ 880 ^ e * 2 ^ p.toNat)

/-- `round(440 * 2^(p/e))`, to nearest, a tie away from zero: the greatest n with `n - 1/2 ≤ 440 * 2^(p/e)`
(42_facade_macros.md R104; log 14). It is below `2^(11 + p/e)`. -/
def roundedPower (p : Int) (e : Nat) : Nat := searchBits (roundsUpTo p e) (11 + p.toNat / e) 0

/-- `note_hz` (42_facade_macros.md R104): `round(440 * 2^(distance/12))`, `distance` over the denominator of `transpose`. -/
def noteHz (n : Note) : Nat :=
  roundedPower (noteSemitones n * n.transpose.den + n.transpose.num) (12 * n.transpose.den)

end Sys2Proof.Machine
end

