-- ==== Sys2Proof/Machine/Facade.lean ====
section
/-! DEFINITION. The Chip facade and its encoders: each pseudo-command as the list of `WRREG` commands it expands to, or the
fault its computation raises (42_facade_macros.md). It is software around the block (00_scope.md R3; log 15). -/

namespace Sys2Proof.Machine

/-- One `WRREG addr, value` of an expansion. -/
structure RegWrite where
  addr : Byte
  value : Byte
  deriving DecidableEq, Repr

/-- `p & 0xFF`. -/
def lowByte (p : BitVec 16) : Byte := (p &&& 0x00FF).setWidth 8

/-- `(p >> 8) & 0xFF`. -/
def highByte (p : BitVec 16) : Byte := ((p >>> 8) &&& 0x00FF).setWidth 8

/-- `TONE ch, p` (42_facade_macros.md R91): fine, then rough, unmasked. -/
def expandTone (ch : Channel) (p : BitVec 16) : List RegWrite :=
  [⟨toneFineReg ch, lowByte p⟩, ⟨toneRoughReg ch, highByte p⟩]

/-- `TONEHZ ch, f` (42_facade_macros.md R93). -/
def expandToneHz (clock : Nat) (ch : Channel) (f : Nat) : Except BlockFault (List RegWrite) :=
  if f = 0 then .error (.contractViolation .zeroFrequency)
  else if clock / (16 * f) > 4095 then .error (.contractViolation .periodOverflow)
  else .ok (expandTone ch (BitVec.ofNat 16 (clock / (16 * f))))

/-- `VOLUME ch, x` (42_facade_macros.md R94). -/
def expandVolume (ch : Channel) (x : Byte) : List RegWrite := [⟨levelReg ch, x &&& 0x1F⟩]

/-- `SETNOISE x` (42_facade_macros.md R95). -/
def expandSetNoise (x : Byte) : List RegWrite := [⟨noiseReg, x &&& 0x1F⟩]

/-- `SETMIXER x` (42_facade_macros.md R96). -/
def expandSetMixer (x : Byte) : List RegWrite := [⟨mixerReg, x⟩]

/-- `as_ep(Hertz(h))` as a natural number (42_facade_macros.md R97): every guard falls back to 1. -/
def hertzDivider (clock h : Nat) : Nat :=
  if h = 0 then 1
  else if clock / (256 * h) > 65535 then 1
  else if clock / (256 * h) = 0 then 1
  else clock / (256 * h)

/-- `as_ep(BeatsPerMinute(b))` as a natural number (42_facade_macros.md R97). -/
def bpmDivider (clock b : Nat) : Nat :=
  if 60 * hertzDivider clock b > 65535 then 1 else 60 * hertzDivider clock b

/-- `as_ep` (42_facade_macros.md R97). -/
def asEp (clock : Nat) : EnvFreq → BitVec 16
  | .hertz h => BitVec.ofNat 16 (hertzDivider clock h.toNat)
  | .beatsPerMinute b => BitVec.ofNat 16 (bpmDivider clock b.toNat)
  | .integer n => n

/-- `SETENVFREQ ef` (42_facade_macros.md R98): low, then high. -/
def expandSetEnvFreq (clock : Nat) (ef : EnvFreq) : List RegWrite :=
  [⟨envFineReg, lowByte (asEp clock ef)⟩, ⟨envRoughReg, highByte (asEp clock ef)⟩]

/-- The builtin shape codes (42_facade_macros.md R99). -/
def builtinCode : BuiltinShape → Byte
  | .fadeOutHold => 0x09
  | .fadeInHold => 0x0D
  | .tooth => 0x0F
  | .saw => 0x0C
  | .triangle => 0x0E

/-- `shape_code` (42_facade_macros.md R99); the raw table is unsupported. -/
def shapeCode : EnvShape → Except BlockFault Byte
  | .builtin s => .ok (builtinCode s)
  | .invertedBuiltin s => .ok (builtinCode s ^^^ 0x04)
  | .customU8 x => .ok x
  | .rawEnvelope => .error (.unsupported .rawEnvelope)

/-- `SETENVSHAPE es` (42_facade_macros.md R100). -/
def expandSetEnvShape (es : EnvShape) : Except BlockFault (List RegWrite) :=
  match shapeCode es with
  | .ok c => .ok [⟨envShapeReg, c⟩]
  | .error f => .error f

/-- `PLAYNOTE ch, n` (42_facade_macros.md R105). -/
def expandPlayNote (clock : Nat) (ch : Channel) (n : Note) : Except BlockFault (List RegWrite) :=
  expandToneHz clock ch (noteHz n)

/-- The expansion of a pseudo-command: everything is computed first, so a fault means that no `WRREG` is issued
(42_facade_macros.md R107). -/
def expand (clock : Nat) : Pseudo → Except BlockFault (List RegWrite)
  | .tone ch p => .ok (expandTone ch p)
  | .toneHz ch f => expandToneHz clock ch f
  | .volume ch x => .ok (expandVolume ch x)
  | .setNoise x => .ok (expandSetNoise x)
  | .setMixer x => .ok (expandSetMixer x)
  | .setEnvFreq ef => .ok (expandSetEnvFreq clock ef)
  | .setEnvShape es => expandSetEnvShape es
  | .playNote ch n => expandPlayNote clock ch n

end Sys2Proof.Machine
end

