-- ==== Sys2Proof/Machine/HostPort.lean ====
section
/-! DEFINITION. How a command reaches the block: the host presents commands one at a time (10_state.md R20,
60_exceptions.md R122); the step at whole commands and the step at single pin writes share one port. -/

namespace Sys2Proof.Machine

/-- The word of one register write of an expansion (30_encoding.md R60). -/
def writeCommand (w : RegWrite) : HostCommand := .word (encode (.wrreg w.addr w.value))

/-- What presenting one command does, `run` saying what a decoded command does. An illegal word raises `IllegalCommand` at
decode, before any pin write (60_exceptions.md R113). A pseudo-command is computed outside the block: a fault is recorded and
nothing issued, else its `WRREG` commands are presented next, in order (42_facade_macros.md R107). -/
def takeCommand (run : Instr → State → Host.Outcome State Fault Refusal) (c : HostCommand) (s : State) :
    Host.Outcome State Fault Refusal :=
  match c with
  | .word w =>
    match decode w with
    | .ok i => run i s
    | .error _ => .next (raiseFault (.illegalCommand w) s)
  | .pseudo p =>
    match expand s.params.clockHz p with
    | .ok ws => .next { s with commands := ws.map writeCommand ++ s.commands }
    | .error f => .next (raiseFault f s)

/-- One step of the block with its host. The order of the tests is that of 60_exceptions.md R117: a faulted block refuses
before anything else; a running command makes its next pin write (10_state.md R20); an idle block takes the next command. -/
def portStep (run : Instr → State → Host.Outcome State Fault Refusal) (s : State) : Host.Outcome State Fault Refusal :=
  match s.fault with
  | some _ => .fault .blockFaulted
  | none =>
    match s.phase with
    | .run _ _ _ => .next (pinStep s)
    | .idle =>
      match s.commands with
      | [] => .fault .awaitingCommand
      | c :: rest => takeCommand run c { s with commands := rest }

/-- The accepting step of a command: pre-check, then `RUN(0)` or a fault (10_state.md R20). -/
def start : Instr → State → State
  | .setmodeInactive => startSetMode .inactive
  | .setmodeRead => startSetModeRead
  | .setmodeWrite => startSetMode .write
  | .setmodeAddress => startSetMode .address
  | .wrbus v => startWrbus v
  | .wrreg a v => startWrreg a v
  | .rdreg a => startRdreg a
  | .setrst l => startSetrst l

/-- One step at the grain of 10_state.md R20: the accepting step of a command, or one pin write. -/
def microStep : State → Host.Outcome State Fault Refusal := portStep fun i s => .next (start i s)

/-- `n` steps at that grain, stopping where no step exists. -/
def microRun : Nat → State → Host.Outcome State Fault Refusal
  | 0, s => .next s
  | n + 1, s =>
    match microStep s with
    | .next t => microRun n t
    | .fault r => .fault r
    | .refused r => .refused r

/-- The state in which the very next step takes the command word `w` (log 5): presented first, to a block that is idle and not
faulted. -/
def presentWord (w : Word) (s : State) : State :=
  { s with fault := none, phase := .idle, commands := .word w :: s.commands }

/-- The host's first duty after the pins are acquired: `SETMODE INACTIVE` (70_reset_and_hazards.md R133). -/
def bootRecipe : List HostCommand := [.word (encode .setmodeInactive)]

/-- The device reset recipe without its waits, which the block has no command for (40_primitive_ops.md R77; log 17). -/
def deviceResetRecipe : List HostCommand := [.word (encode (.setrst .L)), .word (encode (.setrst .H))]

end Sys2Proof.Machine
end

