-- ==== Sys2Proof/Machine/Step.lean ====
section
/-! DEFINITION. One step of the machine: the next command of the host as one transition (10_state.md R13, last paragraph). -/

namespace Sys2Proof.Machine

/-- One step: a whole command from an idle block; one pin write where a command is already running (log 6). -/
def step (s : State) : Host.Outcome State Fault Refusal := portStep exec s

/-- `s` with the command word whose bits are `w` presented next (log 5). There is no fetch: commands come from the host
(20_memory.md R40). -/
def State.withFetchWord (s : State) (nbits w : Nat) : State := presentWord (BitVec.ofNat 24 (w % 2 ^ nbits)) s

end Sys2Proof.Machine
end

