-- ==== Sys2Proof/Machine/Text.lean ====
section
/-! DEFINITION. The textual form of commands and pseudo-commands (30_encoding.md R59): one line of text read as a command. The
block never sees text; the form is the spec's notation for its programs. -/

namespace Sys2Proof.Machine

/-- What a line says. -/
inductive TextLine where
  | command (i : Instr)
  | pseudo (p : Pseudo)
  deriving DecidableEq, Repr

/-- The line up to its comment, which `;` starts. -/
def beforeComment : List Char → List Char
  | [] => []
  | c :: rest => if c = ';' then [] else c :: beforeComment rest

/-- The words of a line, a comma being a word of its own; `word` is the word being read, last character first. -/
def splitWords : List Char → List Char → List (List Char)
  | [], word => if word = [] then [] else [word.reverse]
  | c :: rest, word =>
    if c = ' ' then (if word = [] then splitWords rest [] else word.reverse :: splitWords rest [])
    else if c = ',' then (if word = [] then [','] :: splitWords rest [] else word.reverse :: [','] :: splitWords rest [])
    else splitWords rest (c :: word)

/-- The value of a digit below a base. -/
def digitValue (base : Nat) (c : Char) : Option Nat :=
  let v :=
    if '0' ≤ c ∧ c ≤ '9' then c.toNat - 48
    else if 'a' ≤ c ∧ c ≤ 'f' then c.toNat - 87
    else if 'A' ≤ c ∧ c ≤ 'F' then c.toNat - 55
    else base
  if v < base then some v else none

/-- A number from its digits, none of them missing. -/
def readDigits (base : Nat) : List Char → Nat → Option Nat
  | [], acc => some acc
  | c :: rest, acc =>
    match digitValue base c with
    | some d => readDigits base rest (acc * base + d)
    | none => none

/-- A number in decimal, `0x` hexadecimal or `0b` binary. -/
def readNat : List Char → Option Nat
  | [] => none
  | '0' :: 'x' :: c :: rest => readDigits 16 (c :: rest) 0
  | '0' :: 'b' :: c :: rest => readDigits 2 (c :: rest) 0
  | c :: rest => readDigits 10 (c :: rest) 0

/-- A number of at most `n` bits. -/
def readBits (n : Nat) (t : List Char) : Option (BitVec n) :=
  match readNat t with
  | some v => if v < 2 ^ n then some (BitVec.ofNat n v) else none
  | none => none

/-- An integer, with a sign where it is negative. -/
def readInt : List Char → Option Int
  | '-' :: rest => (readNat rest).map fun n => -(n : Int)
  | '+' :: rest => (readNat rest).map fun n => (n : Int)
  | t => (readNat t).map fun n => (n : Int)

/-- Digits up to the decimal point, and those after it. -/
def splitPoint : List Char → List Char × List Char
  | [] => ([], [])
  | c :: rest => if c = '.' then ([], rest) else (c :: (splitPoint rest).1, (splitPoint rest).2)

/-- An unsigned number of semitones, decimal with an optional fraction. DESIGN CHOICE (log 23, safe): R59 gives no form for a
real number. -/
def readDecimal (t : List Char) : Option Rat :=
  match readDigits 10 ((splitPoint t).1 ++ (splitPoint t).2) 0 with
  | some n => if (splitPoint t).1 = [] then none else some (mkRat n (10 ^ (splitPoint t).2.length))
  | none => none

/-- A number of semitones with an optional sign. -/
def readReal : List Char → Option Rat
  | '-' :: rest => (readDecimal rest).map fun q => -q
  | '+' :: rest => readDecimal rest
  | t => readDecimal t

def readMode (t : List Char) : Option BusMode :=
  if t = "INACTIVE".toList then some .inactive
  else if t = "READ".toList then some .read
  else if t = "WRITE".toList then some .write
  else if t = "ADDRESS".toList then some .address
  else none

def readLevel (t : List Char) : Option Level :=
  if t = ['L'] then some .L else if t = ['H'] then some .H else none

def readChannel (t : List Char) : Option Channel :=
  if t = ['A'] then some .A else if t = ['B'] then some .B else if t = ['C'] then some .C else none

def readLetter (t : List Char) : Option Letter :=
  if t = ['A'] then some .A
  else if t = ['B'] then some .B
  else if t = ['C'] then some .C
  else if t = ['D'] then some .D
  else if t = ['E'] then some .E
  else if t = ['F'] then some .F
  else if t = ['G'] then some .G
  else none

def readAccidental (t : List Char) : Option Accidental :=
  if t = "NONE".toList then some .noAccidental
  else if t = "-2".toList then some .minus2
  else if t = "-1".toList then some .minus1
  else if t = "+1".toList then some .plus1
  else if t = "+2".toList then some .plus2
  else none

def readShape (t : List Char) : Option BuiltinShape :=
  if t = "FADE_OUT_HOLD".toList then some .fadeOutHold
  else if t = "FADE_IN_HOLD".toList then some .fadeInHold
  else if t = "TOOTH".toList then some .tooth
  else if t = "SAW".toList then some .saw
  else if t = "TRIANGLE".toList then some .triangle
  else none

/-- A line with one operand after its mnemonic. -/
def readOne (m x : List Char) : Option TextLine :=
  if m = "SETMODE".toList then (readMode x).map fun b => .command (setmode b)
  else if m = "WRBUS".toList then (readBits 8 x).map fun v => .command (.wrbus v)
  else if m = "RDREG".toList then (readBits 8 x).map fun a => .command (.rdreg a)
  else if m = "SETRST".toList then (readLevel x).map fun l => .command (.setrst l)
  else if m = "SETNOISE".toList then (readBits 8 x).map fun v => .pseudo (.setNoise v)
  else if m = "SETMIXER".toList then (readBits 8 x).map fun v => .pseudo (.setMixer v)
  else if m = "SETENVSHAPE".toList ∧ x = "RAW".toList then some (.pseudo (.setEnvShape .rawEnvelope))
  else none

/-- A line with a tagged operand, `SETENVFREQ` or `SETENVSHAPE`. -/
def readTagged (m tag x : List Char) : Option TextLine :=
  if m = "SETENVFREQ".toList then
    if tag = "HZ".toList then (readBits 16 x).map fun n => .pseudo (.setEnvFreq (.hertz n))
    else if tag = "BPM".toList then (readBits 16 x).map fun n => .pseudo (.setEnvFreq (.beatsPerMinute n))
    else if tag = "INT".toList then (readBits 16 x).map fun n => .pseudo (.setEnvFreq (.integer n))
    else none
  else if m = "SETENVSHAPE".toList then
    if tag = "BUILTIN".toList then (readShape x).map fun s => .pseudo (.setEnvShape (.builtin s))
    else if tag = "INVERTED".toList then (readShape x).map fun s => .pseudo (.setEnvShape (.invertedBuiltin s))
    else if tag = "CUSTOM".toList then (readBits 8 x).map fun v => .pseudo (.setEnvShape (.customU8 v))
    else none
  else none

/-- A line with two operands. -/
def readTwo (m x y : List Char) : Option TextLine :=
  if m = "WRREG".toList then
    match readBits 8 x, readBits 8 y with
    | some a, some v => some (.command (.wrreg a v))
    | _, _ => none
  else
    match readChannel x with
    | none => none
    | some ch =>
      if m = "TONE".toList then (readBits 16 y).map fun p => .pseudo (.tone ch p)
      else if m = "TONEHZ".toList then (readNat y).map fun f => .pseudo (.toneHz ch f)
      else if m = "VOLUME".toList then (readBits 8 y).map fun v => .pseudo (.volume ch v)
      else none

/-- The line of `PLAYNOTE`. -/
def readNote (ch letter octave acc transpose : List Char) : Option TextLine :=
  match readChannel ch, readLetter letter, readInt octave, readAccidental acc, readReal transpose with
  | some c, some l, some o, some a, some t => some (.pseudo (.playNote c ⟨l, o, a, t⟩))
  | _, _, _, _, _ => none

/-- One line of text as a command (30_encoding.md R59); `none` where it is none. -/
def readLine (line : List Char) : Option TextLine :=
  match splitWords (beforeComment line) [] with
  | [m, x] => readOne m x
  | [m, tag, x] => readTagged m tag x
  | [m, x, [','], y] => readTwo m x y
  | [m, ch, [','], letter, [','], octave, [','], acc, [','], transpose] =>
    if m = "PLAYNOTE".toList then readNote ch letter octave acc transpose else none
  | _ => none

end Sys2Proof.Machine
end

