-- ==== Sys2Proof/Safety.lean ====
section
/-! DEFINITION. What claims are stated in: the launch premises of 70_reset_and_hazards.md R143, the good end of R142, and the
invariants of the machine. The premise `ExclusiveOwner` (60_exceptions.md R120) holds by construction: nothing but a step
changes a state, and a step takes one command (log 18). -/

namespace Sys2Proof.Safety

open Sys2Proof.Machine

/-- `NoFault` (70_reset_and_hazards.md R143). -/
def NoFault (s : State) : Prop := s.fault = none

/-- `Idle` (70_reset_and_hazards.md R143). -/
def Idle (s : State) : Prop := s.phase = .idle

/-- `Initialised` (70_reset_and_hazards.md R143). -/
def Initialised (s : State) : Prop := modeOf s.latches = .known .inactive

/-- `NoHazard` (70_reset_and_hazards.md R143). No step clears the mark, so premised of the state AFTER a command it excludes every
hazard up to there; so premised, a claim about the device image is one 20_memory.md R44 allows. -/
def NoHazard (s : State) : Prop := s.dev.hazard = false

/-- `PinsInfallible` for the next `n` pin writes: each of their draws is true (70_reset_and_hazards.md R143). -/
def PinsInfallible (s : State) (n : Nat) : Prop := ∀ k < n, pinAnswer s k = true

/-- The block accepts a command (10_state.md R13). -/
def Ready (s : State) : Prop := NoFault s ∧ Idle s

/-- A good end of a run (70_reset_and_hazards.md R142): the command list is used up, idle, no fault. -/
def GoodEnd (s : State) : Prop := s.commands = [] ∧ Idle s ∧ NoFault s

/-- The number of pin writes of a command that completes (30_encoding.md R54). -/
def pinWrites : Instr → Nat
  | .setmodeInactive => 2
  | .setmodeRead => 0
  | .setmodeWrite => 2
  | .setmodeAddress => 2
  | .wrbus _ => 8
  | .wrreg _ _ => 24
  | .rdreg _ => 0
  | .setrst _ => 1

/-- Data line `i` (10_state.md R10); only 0 to 7 name a line. -/
def dataPin : Nat → Pin
  | 0 => .d0
  | 1 => .d1
  | 2 => .d2
  | 3 => .d3
  | 4 => .d4
  | 5 => .d5
  | 6 => .d6
  | _ => .d7

/-- The two events of a completed mode change (40_primitive_ops.md R72). -/
def modeEvents (m : BusMode) : ControlOrder → List Event
  | .bdirFirst => [⟨.bdir, (levels m).1⟩, ⟨.bc1, (levels m).2⟩]
  | .bc1First => [⟨.bc1, (levels m).2⟩, ⟨.bdir, (levels m).1⟩]

/-- The eight events of a completed bus write (40_primitive_ops.md R74). -/
def busEvents (v : Byte) : List Event := (List.range 8).map fun i => ⟨dataPin i, lvl (v.getLsbD i)⟩

/-- The 24 events of a completed register write of the byte `v` with address byte `a` on the bus, in the order of
41_register_access.md R80, one control order per mode change. -/
def registerEvents (a v : Byte) (o1 o2 o3 o4 : ControlOrder) : List Event :=
  modeEvents .address o1 ++ busEvents a ++ modeEvents .inactive o2 ++ modeEvents .write o3 ++ busEvents v
    ++ modeEvents .inactive o4

/-- The latches with the control lines at the levels of a mode. -/
def modeLatches (l : Latches) (m : BusMode) : Latches :=
  { l with bdir := .known (levels m).1, bc1 := .known (levels m).2 }

/-- The latches with a byte on the data lines (30_encoding.md R52). -/
def busLatches (l : Latches) (v : Byte) : Latches :=
  { l with
    d0 := .known (lvl (v.getLsbD 0)), d1 := .known (lvl (v.getLsbD 1)), d2 := .known (lvl (v.getLsbD 2)),
    d3 := .known (lvl (v.getLsbD 3)), d4 := .known (lvl (v.getLsbD 4)), d5 := .known (lvl (v.getLsbD 5)),
    d6 := .known (lvl (v.getLsbD 6)), d7 := .known (lvl (v.getLsbD 7)) }

/-- The state once `n` answers of the pin layer have been drawn. -/
def spendPins (s : State) (n : Nat) : State :=
  { s with pinAnswers := s.pinAnswers.drop n, pinDraws := s.pinDraws + n }

/-- The phase is legal: a running command has something left to write and is within 24 pin writes (10_state.md R13), and it
writes the reset line only where there is one (40_primitive_ops.md R70). -/
def PhaseLegal (s : State) : Prop :=
  match s.phase with
  | .idle => True
  | .run k todo _ =>
    todo ≠ [] ∧ k + todo.length ≤ 24 ∧ (s.params.hasResetLine = false → ∀ j ∈ todo, j.pin ≠ .rst)

/-- The invariant of the machine: the device image is in canonical form, the clock is not 0, a faulted block is idle, the phase
is legal, and without a reset line its latch and its events do not exist. -/
def Inv (s : State) : Prop :=
  Memory.wf s.dev.regs = true
  ∧ 0 < s.params.clockHz
  ∧ (s.fault ≠ none → s.phase = .idle)
  ∧ PhaseLegal s
  ∧ (s.params.hasResetLine = false → s.latches.rst = .U ∧ ∀ e ∈ s.trace, e.pin ≠ .rst)

/-- The level of the last event of a pin in a trace. -/
def lastLevel (p : Pin) : List Event → Option Level
  | [] => none
  | e :: rest =>
    match lastLevel p rest with
    | some l => some l
    | none => if e.pin = p then some e.level else none

/-- The trace explains the latches: a latch that holds a level holds that of its pin's last event, and a latch that is `U` has
had no event or belongs to the pin that failed (00_scope.md R7, 10_state.md R15, 40_primitive_ops.md R70). -/
def TraceExplainsLatches (s : State) : Prop :=
  ∀ p, match getLatch s.latches p with
    | .known l => lastLevel p s.trace = some l
    | .U => lastLevel p s.trace = none ∨ s.fault = some (.pinFault p)

end Sys2Proof.Safety
end

