-- ==== Sys2Proof/Certificates/Slice0/Obligations.lean ====
section
/-! DEFINITION. The statements for the provers. Where a statement rests on a choice of the model or on a passage of the spec
that is from general knowledge, its docstring names the log entry. An equation of whole states, or of `dev`, says what the GHOST
image records; what may be claimed of the device image is premised on `NoHazard` (20_memory.md R44, log 24). -/

open Sys2Proof Sys2Proof.Machine Sys2Proof.Safety

/-! ### Encoding -/

/-- 30_encoding.md R54, R56, R57: every command, with every operand at every value, is read back from its own word. -/
def Obligations.DecodeInvertsEncode : Prop := ∀ i : Instr, decode (encode i) = .ok i

/-- 30_encoding.md R56, R58: each legal word is the word of the command it decodes to, so no two words name one command. -/
def Obligations.EncodeInvertsDecode : Prop := ∀ (w : Word) (i : Instr), decode w = .ok i → encode i = w

/-- 30_encoding.md R56, R58 and opcode_table.json: the decoder reads a word as a command exactly when the word matches a row of
the table, and then as a command of that row and of no other. -/
def Obligations.DecoderFollowsOpcodeTable : Prop :=
  ∀ w : Word,
    ((∃ i, decode w = .ok i) ↔ wordWellFormed w = true)
    ∧ ∀ i, decode w = .ok i → ∀ r ∈ opcodeRows, r.accepts w = true ↔ r = opcodeRow i

/-- 60_exceptions.md R113: an illegal word raises `IllegalCommand` with the word recorded, and changes nothing else but that
the command is no longer presented; and no command given in its typed form ever raises it. -/
def Obligations.IllegalWordRaisesIllegalCommand : Prop :=
  (∀ (s : State) (w : Word) (rest : List HostCommand), Ready s → s.commands = .word w :: rest → wordWellFormed w = false →
    step s = .next { s with commands := rest, fault := some (.illegalCommand w) })
  ∧ ∀ (i : Instr) (s t : State) (w : Word), exec i s = .next t → t.fault ≠ some (.illegalCommand w)

/-- 95_test_vectors.md V-DE1 to V-DE11: some words and what they decode to. -/
def Obligations.SampleWordsDecode : Prop :=
  decode 0x000000 = .ok .setmodeInactive ∧ decode 0x000001 = .ok .setmodeRead ∧ decode 0x000002 = .ok .setmodeWrite
  ∧ decode 0x000003 = .ok .setmodeAddress ∧ decode 0x0100FF = .ok (.wrbus 0xFF) ∧ decode 0x02FF55 = .ok (.wrreg 255 0x55)
  ∧ decode 0x030F00 = .ok (.rdreg 15) ∧ decode 0x040001 = .ok (.setrst .H)
  ∧ decode 0x000004 = .error .dataFieldNotZero ∧ decode 0x000103 = .error .addressFieldNotZero
  ∧ decode 0x050000 = .error .reservedOpcode

/-! ### The step -/

/-- 10_state.md R13, R20, 30_encoding.md R55: an idle block with a legal word presented runs its command; around it the step
only takes the word off the list of presented commands. -/
def Obligations.StepRunsDecodedCommand : Prop :=
  ∀ (s : State) (w : Word) (rest : List HostCommand) (i : Instr), Ready s → s.commands = .word w :: rest → decode w = .ok i →
    step s = exec i { s with commands := rest }

/-- The same through the word a host presents next (30_encoding.md R55; the list of presented commands is the model's, log 5). -/
def Obligations.PresentedWordRunsNext : Prop :=
  ∀ (i : Instr) (s : State),
    step (s.withFetchWord 24 (encode i).toNat) = exec i { s with fault := none, phase := .idle }

/-- 60_exceptions.md R115: a faulted block has no step and accepts no command, whatever is presented. -/
def Obligations.FaultedBlockIsStuck : Prop :=
  ∀ (s : State) (f : BlockFault), s.fault = some f →
    step s = .fault .blockFaulted ∧ microStep s = .fault .blockFaulted ∧ ∀ i, exec i s = .fault .blockFaulted

/-- 60_exceptions.md R110: the code of each fault. -/
def Obligations.FaultCodesAreTheTable : Prop :=
  (∀ c, faultCode (.unsupported c) = 1) ∧ (∀ p, faultCode (.pinFault p) = 2) ∧ (∀ w, faultCode (.illegalCommand w) = 3)
  ∧ ∀ c, faultCode (.contractViolation c) = 4

/-- 60_exceptions.md R110: each fault is raised by the commands of its row, when the row says so, and all but `PinFault` before
any pin write; `PinFault` records the pin of the first entry of the command's own pin-write list whose write failed, the writes
before it done and in the trace. The commands raise codes 1 and 2, words with the decoder also 3, and a pseudo-command's own computation 1 and 4. -/
def Obligations.FaultsAreRaisedAsTheTableSays : Prop :=
  (∀ (i : Instr) (s t : State) (f : BlockFault), exec i s = .next t → t.fault = some f →
    (faultCode f = 1 ∧ t.trace = s.trace ∧ t.pinDraws = s.pinDraws
      ∧ ((i = .setmodeRead ∧ f = .unsupported .readMode) ∨ ((∃ a, i = .rdreg a) ∧ f = .unsupported .registerRead)
        ∨ ((∃ l, i = .setrst l) ∧ s.params.hasResetLine = false ∧ f = .unsupported .noResetLine)))
    ∨ (faultCode f = 2 ∧ ∃ k todo b j, (start i s).phase = .run 0 todo b ∧ todo.length = pinWrites i ∧ todo[k]? = some j
      ∧ f = .pinFault j.pin ∧ (∀ m < k, pinAnswer s m = true) ∧ pinAnswer s k = false
      ∧ t.trace = s.trace ++ (todo.take k).map jobEvent))
  ∧ (∀ (s t : State) (w : Word) (rest : List HostCommand) (f : BlockFault), s.phase = .idle → s.commands = .word w :: rest →
    step s = .next t → t.fault = some f →
    (faultCode f = 3 ↔ wordWellFormed w = false) ∧ faultCode f ∈ [1, 2, 3])
  ∧ ∀ (clock : Nat) (p : Pseudo) (f : BlockFault), expand clock p = .error f ↔
    (f = .unsupported .rawEnvelope ∧ p = .setEnvShape .rawEnvelope)
    ∨ (f = .contractViolation .zeroFrequency ∧ ∃ ch, p = .toneHz ch 0 ∨ ∃ n, p = .playNote ch n ∧ noteHz n = 0)
    ∨ (f = .contractViolation .periodOverflow
      ∧ ∃ ch g, 0 < g ∧ 4095 < clock / (16 * g) ∧ (p = .toneHz ch g ∨ ∃ n, p = .playNote ch n ∧ noteHz n = g))

/-- 10_state.md R13, R20, 60_exceptions.md R112: a running block accepts no command and its step is its next pin write; an idle
block with nothing presented has no step. -/
def Obligations.CommandsAreTakenInIdleOnly : Prop :=
  ∀ s : State, s.fault = none →
    (s.phase ≠ .idle → step s = .next (pinStep s) ∧ ∀ i, exec i s = .fault .commandInProgress)
    ∧ (s.phase = .idle → s.commands = [] → step s = .fault .awaitingCommand)

/-- 10_state.md R19: the table of reset values. -/
def Obligations.ResetStateIsTheTable : Prop :=
  (∀ p, getLatch State.reset.latches p = .U) ∧ modeOf State.reset.latches = .U ∧ busOf State.reset.latches = .U
  ∧ State.reset.phase = .idle ∧ State.reset.fault = none ∧ State.reset.trace = [] ∧ State.reset.dev.latch = .U
  ∧ (∀ a : Nat, memRead State.reset.dev.regs a = .U) ∧ State.reset.dev.hazard = false

/-- The invariant `Inv` and the agreement of trace and latches hold at reset (10_state.md R19, R13, R15; 20_memory.md R30). -/
def Obligations.ResetMeetsInvariants : Prop := Inv State.reset ∧ TraceExplainsLatches State.reset

/-- Every step keeps `Inv` (10_state.md R10, R13, R17, 20_memory.md R30, 60_exceptions.md R114): the canonical form of the
device image (the model's own form, log 11), a running command within 24 pin writes, a faulted block idle, no event of a reset
line that is not there. -/
def Obligations.StepKeepsInv : Prop := ∀ s t : State, Inv s → step s = .next t → Inv t

/-- Every step keeps the agreement of trace and latches (10_state.md R10, R12, R15, 40_primitive_ops.md R70): a latch holds the
level of the last event on its pin, and is `U` only before its first event or after its own failed write. -/
def Obligations.StepKeepsTraceLatchAgreement : Prop :=
  ∀ s t : State, TraceExplainsLatches s → step s = .next t → TraceExplainsLatches t

/-- 10_state.md R15, R17, 00_scope.md R6: no step removes or reorders an event, clears the hazard mark or writes a
parameter. -/
def Obligations.StepOnlyAppendsToTrace : Prop :=
  ∀ s t : State, step s = .next t →
    (∃ new, t.trace = s.trace ++ new) ∧ (s.dev.hazard = true → t.dev.hazard = true) ∧ t.params = s.params

/-- 10_state.md R13, R20, 70_reset_and_hazards.md R141: the step that runs a whole command is the accepting step followed by
single pin writes, at most 24 of them (for a pseudo-command, none). -/
def Obligations.StepIsAcceptanceThenPinWrites : Prop :=
  ∀ (s : State) (c : HostCommand) (rest : List HostCommand), Ready s → s.commands = c :: rest →
    ∃ n ≤ 24, microRun (n + 1) s = step s

/-- 10_state.md R13, 20_memory.md R36, 70_reset_and_hazards.md R141: an accepted command whose pin writes all succeed passes
through `RUN(0)`, `RUN(1)`, ... and is idle again after exactly its number of pin writes, each of which left an event. -/
def Obligations.AcceptedCommandEndsAfterItsCount : Prop :=
  ∀ (i : Instr) (s : State), Ready s → (start i s).fault = none → PinsInfallible s (pinWrites i) →
    (∀ k < pinWrites i, ∃ todo b, (pinSteps k (start i s)).phase = .run k todo b ∧ todo.length = pinWrites i - k)
    ∧ exec i s = .next (pinSteps (pinWrites i) (start i s))
    ∧ (pinSteps (pinWrites i) (start i s)).phase = .idle ∧ (pinSteps (pinWrites i) (start i s)).fault = none
    ∧ (pinSteps (pinWrites i) (start i s)).trace.length = s.trace.length + pinWrites i

/-- 60_exceptions.md R114, 41_register_access.md R84, 40_primitive_ops.md R70: where the pin write number `done.length` of an
accepted command is the first to fail, the writes before it are done and in the trace, its latch is `U`, its pin is recorded,
nothing after it happens, and the block is idle. -/
def Obligations.PinFailureCutsCommand : Prop :=
  ∀ (i : Instr) (s : State) (done rest : List PinJob) (j : PinJob) (b : UVal BusMode), Ready s →
    (start i s).phase = .run 0 (done ++ j :: rest) b → (∀ k < done.length, pinAnswer s k = true) →
    pinAnswer s done.length = false →
    ∃ t, exec i s = .next t ∧ t.fault = some (.pinFault j.pin) ∧ t.phase = .idle ∧ t.trace = s.trace ++ done.map jobEvent
      ∧ t.latches = setLatch (done.foldl (fun l d => setLatch l d.pin (.known d.level)) s.latches) j.pin .U
      ∧ t.params = s.params ∧ t.commands = s.commands ∧ t.pinDraws = s.pinDraws + done.length + 1

/-- 10_state.md R15, R17, R18: nothing the block does depends on the ghost state: with another trace and another device image the
same command has the same new events, latches, fault and phase. -/
def Obligations.GhostStateIsNeverRead : Prop :=
  ∀ (i : Instr) (s t : State) (d : Dev) (tr : List Event), exec i s = .next t →
    ∃ new u, t.trace = s.trace ++ new ∧ exec i { s with dev := d, trace := tr } = .next u ∧ u.trace = tr ++ new
      ∧ u.latches = t.latches ∧ u.fault = t.fault ∧ u.phase = t.phase

/-- 10_state.md R13, 41_register_access.md R83: no pin write is conditional on a latch: from other latches the same command has
the same new events and the same fault. -/
def Obligations.EventsDoNotDependOnLatches : Prop :=
  ∀ (i : Instr) (s t : State) (l : Latches), exec i s = .next t →
    ∃ new u, t.trace = s.trace ++ new ∧ exec i { s with latches := l } = .next u ∧ u.trace = s.trace ++ new
      ∧ u.fault = t.fault

/-! ### Completion and results -/

/-- 40_primitive_ops.md R72: `SETMODE m`, for the three modes that are driven, writes both control lines in the chosen order and
nothing else of the block; a failed first write leaves the second not attempted. The order is the one `CTL_ORDER` fixes, or
under `ANY` any the environment chooses. How the draws are counted is the model's own (logs 2, 3). -/
def Obligations.SetModeWritesBothControlLines : Prop :=
  (encode .setmodeInactive = 0x000000 ∧ encode .setmodeWrite = 0x000002 ∧ encode .setmodeAddress = 0x000003)
  ∧ (∀ (m : BusMode) (s : State) (e0 e1 : Event), m ≠ .read → Ready s → modeEvents m (controlOrder s 0) = [e0, e1] →
    (PinsInfallible s 2 → ∃ d, exec (setmode m) s =
      .next { drawOrders (spendPins s 2) 1 with
        latches := modeLatches s.latches m, trace := s.trace ++ [e0, e1], dev := d })
    ∧ (pinAnswer s 0 = false → exec (setmode m) s =
      .next { drawOrders (spendPins s 1) 1 with
        latches := setLatch s.latches e0.pin .U, fault := some (.pinFault e0.pin) })
    ∧ (pinAnswer s 0 = true → pinAnswer s 1 = false → ∃ d, exec (setmode m) s =
      .next { drawOrders (spendPins s 2) 1 with
        latches := setLatch (setLatch s.latches e0.pin (.known e0.level)) e1.pin .U, trace := s.trace ++ [e0], dev := d,
        fault := some (.pinFault e1.pin) }))
  ∧ (∀ s : State, s.params.ctlOrder = .bdirFirst → controlOrder s 0 = .bdirFirst)
  ∧ (∀ s : State, s.params.ctlOrder = .bc1First → controlOrder s 0 = .bc1First)
  ∧ ∀ (s : State) (o : ControlOrder), s.params.ctlOrder = .any →
    controlOrder { s with orderChoices := o :: s.orderChoices } 0 = o

/-- 40_primitive_ops.md R73, which the spec marks as derived: the properties (a) to (e) of `SETMODE`. -/
def Obligations.SetModeEndsInItsMode : Prop :=
  ∀ (m : BusMode) (s : State), m ≠ .read → Ready s → PinsInfallible s 4 →
    ∃ t u, exec (setmode m) s = .next t ∧ exec (setmode m) t = .next u
      ∧ modeOf t.latches = .known m ∧ t.latches.bdir = .known (levels m).1 ∧ t.latches.bc1 = .known (levels m).2
      ∧ busOf t.latches = busOf s.latches ∧ t.latches.rst = s.latches.rst ∧ t.fault = s.fault
      ∧ t.trace.length = s.trace.length + 2
      ∧ u.latches = t.latches ∧ u.trace.length = t.trace.length + 2

/-- 40_primitive_ops.md R71: `SETMODE READ` always faults `Unsupported(ReadMode)`; nothing else changes. -/
def Obligations.SetModeReadFaultsUnsupported : Prop :=
  encode .setmodeRead = 0x000001
  ∧ ∀ s : State, Ready s → exec .setmodeRead s = .next { s with fault := some (.unsupported .readMode) }

/-- 41_register_access.md R82: `RDREG a` always faults `Unsupported(RegisterRead)`, whatever `a`; nothing else changes. -/
def Obligations.RegisterReadFaultsUnsupported : Prop :=
  (∀ a : Byte, encode (.rdreg a) = 0x030000 ||| a.setWidth 24 <<< 8)
  ∧ ∀ (a : Byte) (s : State), Ready s → exec (.rdreg a) s = .next { s with fault := some (.unsupported .registerRead) }

/-- 40_primitive_ops.md R74: `WRBUS v` writes the eight data lines, least significant bit first, and nothing else; at the write
that fails the lines below hold the new bits, that line is `U` and the lines above keep the old bits. How the draws are counted is the
model's own (log 3). -/
def Obligations.WriteBusDrivesEveryDataLine : Prop :=
  (∀ v : Byte, encode (.wrbus v) = 0x010000 ||| v.setWidth 24)
  ∧ ∀ (v : Byte) (s : State), Ready s →
    (PinsInfallible s 8 → exec (.wrbus v) s =
      .next { spendPins s 8 with latches := busLatches s.latches v, trace := s.trace ++ busEvents v })
    ∧ ∀ i < 8, (∀ j < i, pinAnswer s j = true) → pinAnswer s i = false →
      ∃ l : Latches, exec (.wrbus v) s =
          .next { spendPins s (i + 1) with
            latches := l, trace := s.trace ++ (busEvents v).take i, fault := some (.pinFault (dataPin i)) }
        ∧ (∀ j < i, getLatch l (dataPin j) = .known (lvl (v.getLsbD j)))
        ∧ getLatch l (dataPin i) = .U
        ∧ (∀ j < 8, i < j → getLatch l (dataPin j) = getLatch s.latches (dataPin j))
        ∧ l.bdir = s.latches.bdir ∧ l.bc1 = s.latches.bc1 ∧ l.rst = s.latches.rst

/-- 40_primitive_ops.md R75 (a), (d), which the spec marks as derived: after the write to `Di` the bus holds the low `i + 1` bits
of the new byte under the high bits of the old one, and after the last one the new byte. -/
def Obligations.BusPassesThroughMixedBytes : Prop :=
  ∀ (v w : Byte) (s : State) (i : Nat), Ready s → PinsInfallible s 8 → busOf s.latches = .known w → i < 8 →
    busOf (pinSteps (i + 1) (start (.wrbus v) s)).latches
      = .known ((w &&& ~~~ BitVec.ofNat 8 (2 ^ (i + 1) - 1)) ||| (v &&& BitVec.ofNat 8 (2 ^ (i + 1) - 1)))

/-- 40_primitive_ops.md R76: `SETRST l` faults `Unsupported(NoResetLine)` without the line, and with it makes one pin write, to
`RST` and to no other latch; of the device image writing `L` makes all `U` and writing `H` changes nothing
(20_memory.md R42). How the draws are counted is the model's own (log 3). -/
def Obligations.SetResetWritesResetLine : Prop :=
  (∀ l : Level, encode (.setrst l) = 0x040000 ||| (levelBit l).setWidth 24)
  ∧ ∀ (l : Level) (s : State), Ready s →
    (s.params.hasResetLine = false → exec (.setrst l) s = .next { s with fault := some (.unsupported .noResetLine) })
    ∧ (s.params.hasResetLine = true → PinsInfallible s 1 → exec (.setrst l) s =
      .next { spendPins s 1 with
        latches := { s.latches with rst := .known l }, trace := s.trace ++ [⟨.rst, l⟩],
        dev := if l = .L then { latch := .U, regs := [], hazard := s.dev.hazard } else s.dev })
    ∧ (s.params.hasResetLine = true → pinAnswer s 0 = false → exec (.setrst l) s =
      .next { spendPins s 1 with latches := { s.latches with rst := .U }, fault := some (.pinFault .rst) })

/-- 70_reset_and_hazards.md R132, 20_memory.md R42: the device reset, `SETRST L` then `SETRST H`, changes of the block the `RST`
latch and the trace only, and makes the whole device image `U`, its hazard mark apart. -/
def Obligations.DeviceResetLeavesBlockAlone : Prop :=
  ∀ s : State, Ready s → s.params.hasResetLine = true → PinsInfallible s 2 →
    ∃ t u, exec (.setrst .L) s = .next t ∧ exec (.setrst .H) t = .next u
      ∧ u = { spendPins s 2 with
          latches := { s.latches with rst := .known .H }, trace := s.trace ++ [⟨.rst, .L⟩, ⟨.rst, .H⟩],
          dev := { latch := .U, regs := [], hazard := s.dev.hazard } }
      ∧ ∀ a, memRead t.dev.regs a = .U

/-- 41_register_access.md R80: `WRREG a, v` is the fixed sequence of 24 pin writes of its seven steps, whatever the operands and
the state; it ends with the control lines at INACTIVE and the value on the data lines; its only faults are pin faults. How
the draws are counted is the model's own (logs 2, 3, 9). -/
def Obligations.WriteRegisterIsTheSequence : Prop :=
  (∀ a v : Byte, encode (.wrreg a v) = 0x020000 ||| a.setWidth 24 <<< 8 ||| v.setWidth 24)
  ∧ ∀ (a v : Byte) (s : State), Ready s →
    (PinsInfallible s 24 → ∃ d, exec (.wrreg a v) s =
      .next { drawOrders (spendPins s 24) 4 with
        latches := modeLatches (busLatches s.latches v) .inactive,
        trace := s.trace ++ registerEvents (BitVec.ofNat 8 (min a.toNat 15)) v
          (controlOrder s 0) (controlOrder s 1) (controlOrder s 2) (controlOrder s 3),
        dev := d })
    ∧ ∃ t, exec (.wrreg a v) s = .next t ∧ (t.fault = none ∨ ∃ p, t.fault = some (.pinFault p))

/-- 41_register_access.md R84: a register write cut at its pin write `k` leaves its first `k` events, and the latch of the pin
of event `k` is `U`; cut in 2..9 it leaves the control lines in ADDRESS, cut in 14..21 in WRITE. -/
def Obligations.CutRegisterWriteStaysInItsMode : Prop :=
  ∀ (a v : Byte) (s : State) (k : Nat) (events : List Event) (e : Event), Ready s →
    events = registerEvents (BitVec.ofNat 8 (min a.toNat 15)) v
      (controlOrder s 0) (controlOrder s 1) (controlOrder s 2) (controlOrder s 3) →
    events[k]? = some e → (∀ j < k, pinAnswer s j = true) → pinAnswer s k = false →
    ∃ t, exec (.wrreg a v) s = .next t ∧ t.fault = some (.pinFault e.pin) ∧ getLatch t.latches e.pin = .U
      ∧ t.trace = s.trace ++ events.take k
      ∧ (2 ≤ k → k ≤ 9 → modeOf t.latches = .known .address)
      ∧ (14 ≤ k → k ≤ 21 → modeOf t.latches = .known .write)

/-- 20_memory.md R42, 41_register_access.md R80: from INACTIVE, with the observer at phase grain, `WRREG a, v` is exactly
`MemWrite(min(a,15), 1, v)` on the device image, `NoHazard` premised as 20_memory.md R44 asks of every claim about it. Rests on
the observer's device-side rules (log 10). -/
def Obligations.WriteRegisterStoresOneByte : Prop :=
  ∀ (a v : Byte) (s : State), Ready s → Initialised s → NoHazard s → s.params.obsGranularity = .phase →
    PinsInfallible s 24 →
    ∃ t, exec (.wrreg a v) s = .next t ∧ modeOf t.latches = .known .inactive ∧ busOf t.latches = .known v
      ∧ t.dev.latch = .known (BitVec.ofNat 4 (min a.toNat 15)) ∧ t.dev.hazard = s.dev.hazard
      ∧ ∀ b, memRead t.dev.regs b = if b = min a.toNat 15 then .known v else memRead s.dev.regs b

/-- 41_register_access.md R81, which the spec marks as derived: a register write has the trace and the end state of its six
primitive commands issued one after another. -/
def Obligations.WriteRegisterEqualsSixPrimitives : Prop :=
  ∀ (a v : Byte) (s : State), Ready s → PinsInfallible s 24 →
    ∃ s1 s2 s3 s4 s5 s6, exec .setmodeAddress s = .next s1
      ∧ exec (.wrbus (BitVec.ofNat 8 (min a.toNat 15))) s1 = .next s2 ∧ exec .setmodeInactive s2 = .next s3
      ∧ exec .setmodeWrite s3 = .next s4 ∧ exec (.wrbus v) s4 = .next s5 ∧ exec .setmodeInactive s5 = .next s6
      ∧ exec (.wrreg a v) s = .next s6

/-- 20_memory.md R34, 60_exceptions.md R118, 41_register_access.md R85 (a): an address above 15 is the address 15, by saturation,
and nothing records it. -/
def Obligations.OutOfRangeAddressIsClamped : Prop :=
  (∀ a : Byte, (clampAddr a).toNat = min a.toNat 15)
  ∧ ∀ (a v : Byte) (s : State), 15 < a.toNat → exec (.wrreg a v) s = exec (.wrreg 15 v) s

/-- 20_memory.md R43, which the spec marks as derived: with the observer at pin grain every register write sets the hazard mark,
in either order. Rests on the level table (log 1) and on the observer (log 10). -/
def Obligations.PinGrainMarksEveryRegisterWrite : Prop :=
  ∀ (a v : Byte) (s : State), Ready s → s.params.obsGranularity = .pin → PinsInfallible s 24 →
    ∃ t, exec (.wrreg a v) s = .next t ∧ t.dev.hazard = true

/-- 70_reset_and_hazards.md R138, which the spec marks as derived: the mode the control lines show between the two writes of a
mode change. Rests on the level table (log 1). -/
def Obligations.ControlLineTransients : Prop :=
  ∀ (s : State) (old new : BusMode) (o : ControlOrder) (between : BusMode), Ready s → pinAnswer s 0 = true →
    modeOf s.latches = .known old → controlOrder s 0 = o →
    (old, new, o, between) ∈
      [(BusMode.inactive, BusMode.address, ControlOrder.bdirFirst, BusMode.write), (.inactive, .address, .bc1First, .read),
       (.address, .inactive, .bdirFirst, .read), (.address, .inactive, .bc1First, .write),
       (.inactive, .write, .bdirFirst, .write), (.inactive, .write, .bc1First, .inactive),
       (.write, .inactive, .bdirFirst, .inactive), (.write, .inactive, .bc1First, .write),
       (.address, .write, .bdirFirst, .address), (.address, .write, .bc1First, .write),
       (.write, .address, .bdirFirst, .write), (.write, .address, .bc1First, .address)] →
    modeOf (pinStep (start (setmode new) s)).latches = .known between

/-- 41_register_access.md R85 (d), 20_memory.md R41 clause 3, 70_reset_and_hazards.md R134, R137: a register write begun in WRITE
is performed as always, and sets the hazard mark. Rests on the observer (log 10). -/
def Obligations.RegisterWriteFromWriteModeMarksHazard : Prop :=
  ∀ (a v : Byte) (s : State), Ready s → modeOf s.latches = .known .write → PinsInfallible s 24 →
    ∃ t, exec (.wrreg a v) s = .next t ∧ t.fault = none ∧ modeOf t.latches = .known .inactive ∧ t.dev.hazard = true

/-- 20_memory.md R41, R42: at phase grain a completed mode change shows the observer the mode before, the byte on the bus and the
mode after, once: the hazard mark is that of one `dev_edge`, and so, `NoHazard` premised at the end (20_memory.md R44), is the
image. Rests on the observer (log 10, log 24). -/
def Obligations.ModeChangeIsObservedOnce : Prop :=
  ∀ (m : BusMode) (s : State), m ≠ .read → Ready s → s.params.obsGranularity = .phase → PinsInfallible s 2 →
    ∃ t, exec (setmode m) s = .next t
      ∧ t.dev.hazard = (devEdge s.dev (modeOf s.latches) (busOf s.latches) (.known m)).hazard
      ∧ (NoHazard t → t.dev = devEdge s.dev (modeOf s.latches) (busOf s.latches) (.known m))

/-- 20_memory.md R41: the clauses of `dev_edge`, through what the device image reads as. Rests on the observer (log 10) and on
the canonical form of the image (log 11); it is about the function the ghost observer is, not about a device
(20_memory.md R44, log 24). -/
def Obligations.ObserverFollowsItsClauses : Prop :=
  ∀ (d : Dev) (old new : UVal BusMode) (b : UVal Byte), Memory.wf d.regs = true →
    (old = .U ∨ new = .U ∨ old = new → devEdge d old b new = d)
    ∧ ∀ m n, old = .known m → new = .known n → m ≠ n →
      ((devEdge d old b new).hazard = true ↔
        d.hazard = true ∨ n = .read ∨ (m = .address ∧ n = .write) ∨ (m = .write ∧ n = .address))
      ∧ (m ≠ .address → (devEdge d old b new).latch = d.latch)
      ∧ (m = .address → ∀ v, b = .known v → v.toNat < 16 →
          (devEdge d old b new).latch = .known (BitVec.ofNat 4 v.toNat))
      ∧ (m = .address → (b = .U ∨ ∃ v, b = .known v ∧ 16 ≤ v.toNat) → (devEdge d old b new).latch = .U)
      ∧ (m ≠ .write → (devEdge d old b new).regs = d.regs)
      ∧ (m = .write → d.latch = .U → ∀ a : Nat, memRead (devEdge d old b new).regs a = .U)
      ∧ (m = .write → ∀ c, d.latch = .known c →
          ∀ a : Nat, memRead (devEdge d old b new).regs a = if a = c.toNat then b else memRead d.regs a)

/-- 00_scope.md R5, 40_primitive_ops.md R71, 60_exceptions.md R119: no command that completes leaves the control lines at READ
unless it found them there. It is about the END of a command: inside a `WRREG` READ does appear between two control-line writes
(70_reset_and_hazards.md R138). -/
def Obligations.CompletedCommandLeavesReadOnlyIfFoundThere : Prop :=
  ∀ (i : Instr) (s t : State), exec i s = .next t → t.fault = none → modeOf t.latches = .known .read →
    modeOf s.latches = .known .read

/-- 40_primitive_ops.md R72, 95_test_vectors.md P1: at phase grain the order of the two control-line writes changes no latch, no
fault and not the hazard mark, whatever is chosen at each mode change; nor, `NoHazard` premised at the end (20_memory.md R44), the
device image. Rests on the observer (log 10, log 24) and on the list of choices (log 2). -/
def Obligations.ControlOrderDoesNotChangeTheEnd : Prop :=
  ∀ (i : Instr) (s : State) (os : List ControlOrder), Ready s → s.params.obsGranularity = .phase →
    PinsInfallible s (pinWrites i) →
    ∃ t u, exec i s = .next t ∧ exec i { s with orderChoices := os } = .next u
      ∧ u.latches = t.latches ∧ u.fault = t.fault ∧ u.dev.hazard = t.dev.hazard ∧ (NoHazard t → u.dev = t.dev)

/-! ### Frames -/

/-- What each command leaves unchanged of the latches, the trace, the parameters, the presented commands and the draws, whether
it completes or faults (10_state.md R10, R12, 40_primitive_ops.md R71, R72, R74, R76, 41_register_access.md R80, R82). -/
def Obligations.LatchFrameOfCommands : Prop :=
  ∀ (i : Instr) (s t : State), exec i s = .next t →
    t.params = s.params ∧ t.commands = s.commands ∧ t.phase = .idle
    ∧ (i = .setmodeInactive ∨ i = .setmodeWrite ∨ i = .setmodeAddress →
        ∀ p, p ≠ .bdir → p ≠ .bc1 → getLatch t.latches p = getLatch s.latches p)
    ∧ (∀ v, i = .wrbus v →
        t.latches.bdir = s.latches.bdir ∧ t.latches.bc1 = s.latches.bc1 ∧ t.latches.rst = s.latches.rst
        ∧ t.orderChoices = s.orderChoices ∧ t.orderDraws = s.orderDraws)
    ∧ (∀ a v, i = .wrreg a v → t.latches.rst = s.latches.rst)
    ∧ (∀ l, i = .setrst l →
        (∀ p, p ≠ .rst → getLatch t.latches p = getLatch s.latches p)
        ∧ t.orderChoices = s.orderChoices ∧ t.orderDraws = s.orderDraws)
    ∧ ((i = .setmodeRead ∨ ∃ a, i = .rdreg a) →
        t.latches = s.latches ∧ t.trace = s.trace ∧ t.dev = s.dev ∧ t.pinAnswers = s.pinAnswers
        ∧ t.pinDraws = s.pinDraws ∧ t.orderChoices = s.orderChoices ∧ t.orderDraws = s.orderDraws)

/-- What each command leaves unchanged of the device image, whether it completes or faults (20_memory.md R41, R42,
40_primitive_ops.md R74, R76). The hazard mark: a command without a mode change leaves it. The image, `NoHazard` premised at the
end as 20_memory.md R44 asks: a command that stores nothing leaves all of it; `SETMODE` stores only on leaving WRITE, at the
latched address, and latches only on leaving ADDRESS; `WRREG` stores at the clamped address only. Rests on the observer (log 10,
log 24). -/
def Obligations.DeviceImageFrame : Prop :=
  ∀ (i : Instr) (s t : State), exec i s = .next t →
    ((i = .setmodeRead ∨ (∃ a, i = .rdreg a) ∨ (∃ v, i = .wrbus v) ∨ ∃ l, i = .setrst l) → t.dev.hazard = s.dev.hazard)
    ∧ (NoHazard t →
      NoHazard s
      ∧ ((i = .setmodeRead ∨ (∃ a, i = .rdreg a) ∨ (∃ v, i = .wrbus v) ∨ i = .setrst .H) → t.dev = s.dev)
      ∧ (i = .setmodeInactive ∨ i = .setmodeWrite ∨ i = .setmodeAddress →
          (s.params.obsGranularity = .phase ∨ modeOf s.latches ≠ .U → modeOf s.latches ≠ .known .write →
            t.dev.regs = s.dev.regs)
          ∧ (modeOf s.latches ≠ .known .address → t.dev.latch = s.dev.latch)
          ∧ ∀ c, s.dev.latch = .known c → ∀ b, b ≠ c.toNat → memRead t.dev.regs b = memRead s.dev.regs b)
      ∧ ∀ a v, i = .wrreg a v → ∀ b, b ≠ min a.toNat 15 → memRead t.dev.regs b = memRead s.dev.regs b)

/-! ### The facade -/

/-- 42_facade_macros.md R91: `TONE ch, p` writes exactly two registers, `(2*ch, p & 0xFF)` then `(2*ch + 1, (p >> 8) & 0xFF)`. -/
def Obligations.ToneWritesFineThenRough : Prop :=
  ∀ (clock : Nat) (ch : Channel) (p : BitVec 16), ∃ r0 r1, expand clock (.tone ch p) = .ok [r0, r1]
    ∧ r0.addr.toNat = 2 * channelIndex ch ∧ r0.value.toNat = p.toNat % 256
    ∧ r1.addr.toNat = 2 * channelIndex ch + 1 ∧ r1.value.toNat = p.toNat / 256

/-- 42_facade_macros.md R93: `TONEHZ ch, f` is `TONE` of `CLOCK_HZ / (16 * f)`, or the fault of the contract broken, zero first. -/
def Obligations.ToneHzDividesTheClock : Prop :=
  ∀ (clock : Nat) (ch : Channel) (f : Nat),
    (f = 0 → expand clock (.toneHz ch f) = .error (.contractViolation .zeroFrequency))
    ∧ (0 < f → 4095 < clock / (16 * f) → expand clock (.toneHz ch f) = .error (.contractViolation .periodOverflow))
    ∧ (0 < f → clock / (16 * f) ≤ 4095 → ∃ p : BitVec 16, p.toNat = clock / (16 * f)
        ∧ expand clock (.toneHz ch f) = expand clock (.tone ch p))

/-- 42_facade_macros.md R94, R95, R96: `VOLUME` writes register `8 + ch` and `SETNOISE` register 6 with the value masked to 5
bits, `SETMIXER` register 7 with the whole value. -/
def Obligations.LevelNoiseMixerWrites : Prop :=
  ∀ (clock : Nat) (ch : Channel) (x : Byte),
    (∃ r, expand clock (.volume ch x) = .ok [r] ∧ r.addr.toNat = 8 + channelIndex ch ∧ r.value.toNat = x.toNat % 32)
    ∧ (∃ r, expand clock (.setNoise x) = .ok [r] ∧ r.addr.toNat = 6 ∧ r.value.toNat = x.toNat % 32)
    ∧ ∃ r, expand clock (.setMixer x) = .ok [r] ∧ r.addr.toNat = 7 ∧ r.value = x

/-- 42_facade_macros.md R97: `as_ep`: every guard falls back to 1, beats per minute are 60 times the hertz divider where that
fits, an integer is itself. -/
def Obligations.EnvelopeDividerIsGuarded : Prop :=
  ∀ (clock : Nat) (h b n : BitVec 16),
    (asEp clock (.hertz h)).toNat =
      (if h.toNat = 0 ∨ 65535 < clock / (256 * h.toNat) ∨ clock / (256 * h.toNat) = 0 then 1 else clock / (256 * h.toNat))
    ∧ (asEp clock (.beatsPerMinute b)).toNat =
      (if 65535 < 60 * (asEp clock (.hertz b)).toNat then 1 else 60 * (asEp clock (.hertz b)).toNat)
    ∧ asEp clock (.integer n) = n

/-- 42_facade_macros.md R98, R100, R99: `SETENVFREQ` writes the low byte to register 11, then the high byte to register 12;
`SETENVSHAPE` writes the shape code to register 13; inversion flips bit 2 of the code; the raw table is unsupported. -/
def Obligations.EnvelopeWrites : Prop :=
  ∀ (clock : Nat) (ef : EnvFreq) (s : BuiltinShape) (x : Byte),
    (∃ r0 r1, expand clock (.setEnvFreq ef) = .ok [r0, r1] ∧ r0.addr.toNat = 11 ∧ r1.addr.toNat = 12
      ∧ (asEp clock ef).toNat = r1.value.toNat * 256 + r0.value.toNat)
    ∧ expand clock (.setEnvShape (.builtin s)) = .ok [⟨13, builtinCode s⟩]
    ∧ expand clock (.setEnvShape (.invertedBuiltin s)) = .ok [⟨13, builtinCode s ^^^ 0x04⟩]
    ∧ expand clock (.setEnvShape (.customU8 x)) = .ok [⟨13, x⟩]
    ∧ expand clock (.setEnvShape .rawEnvelope) = .error (.unsupported .rawEnvelope)
    ∧ [BuiltinShape.fadeOutHold, .fadeInHold, .tooth, .saw, .triangle].map builtinCode = [0x09, 0x0D, 0x0F, 0x0C, 0x0E]

/-- 42_facade_macros.md R104, R102: `note_hz` is the real number `440 * 2^(distance/12)` rounded to the nearest integer (it is
positive, so a tie goes away from zero). The transposition is rational (log 13), the letter offsets are the spec's (log 14). -/
def Obligations.NoteFrequencyIsRoundedRealPower : Prop :=
  ∀ n : Note, (noteHz n : ℤ) = round (440 * (2 : ℝ) ^ ((noteDistance n : ℝ) / 12))

/-- 42_facade_macros.md R102, R104, R105: `PLAYNOTE` of any note, its transposition any real number, is `TONEHZ` of the frequency
the rule gives it, and some note of the plain data (log 13) with the same letter, octave and accidental is that `PLAYNOTE`. -/
def Obligations.EveryRealNoteIsPlayed : Prop :=
  ∀ n : NoteOf ℝ, ∃ m : Note,
    m.letter = n.letter ∧ m.octave = n.octave ∧ m.accidental = n.accidental ∧ isNoteHz n (noteHz m)
    ∧ ∀ (clock : Nat) (ch : Channel) (f : Nat), isNoteHz n f →
      expand clock (.playNote ch m) = expand clock (.toneHz ch f)

/-- 42_facade_macros.md R107, R105, 30_encoding.md R60: a pseudo-command whose computation faults issues nothing and only records
its fault; otherwise its register writes are presented next, in order, before everything else. -/
def Obligations.ExpansionIsAllOrNothing : Prop :=
  ∀ (s : State) (p : Pseudo) (rest : List HostCommand), Ready s → s.commands = .pseudo p :: rest →
    (∀ f, expand s.params.clockHz p = .error f → step s = .next { s with commands := rest, fault := some f })
    ∧ ∀ ws, expand s.params.clockHz p = .ok ws →
      step s = .next { s with commands := ws.map (fun r => .word (encode (.wrreg r.addr r.value))) ++ rest }

/-- 42_facade_macros.md R107, 20_memory.md R42, R33: run to its end from an initialised block with the observer at phase grain, a
pseudo-command has written its registers, in order, and nothing else; `NoHazard` is premised (20_memory.md R44). Rests on the observer (log 10) and on the model's list of
presented commands (log 5). -/
def Obligations.PseudoCommandReachesTheDevice : Prop :=
  ∀ (s : State) (p : Pseudo) (rest : List HostCommand) (ws : List RegWrite), Ready s → Initialised s →
    NoHazard s → s.params.obsGranularity = .phase → s.commands = .pseudo p :: rest → expand s.params.clockHz p = .ok ws →
    PinsInfallible s (24 * ws.length) →
    ∃ t, Host.Core.run core (ws.length + 1) s = .next t ∧ Ready t ∧ Initialised t ∧ t.commands = rest
      ∧ t.dev.regs = ws.foldl (fun m r => memWrite m (clampAddr r.addr) (.known r.value)) s.dev.regs
      ∧ t.dev.hazard = s.dev.hazard ∧ t.trace.length = s.trace.length + 24 * ws.length
end

