-- ==== Sys2Proof/Laws/Decode.lean ====
section
/-! SUPPORT. The fields of the command word: each is read back from a word made of fields, and a word is its fields. -/

namespace Sys2Proof

/-- A word made of fields, as a number. -/
theorem ofFields_toNat (o a d : Byte) : (ofFields o a d).toNat = (o.toNat * 256 + a.toNat) * 256 + d.toNat := by
  have := a.isLt
  have := d.isLt
  unfold ofFields
  rw [BitVec.toNat_append, BitVec.toNat_append, ← Nat.shiftLeft_add_eq_or_of_lt (by omega),
    ← Nat.shiftLeft_add_eq_or_of_lt (by omega), Nat.shiftLeft_eq, Nat.shiftLeft_eq]

theorem opField_toNat (w : Word) : (opField w).toNat = w.toNat / 2 ^ 16 % 2 ^ 8 := by
  simp only [opField, BitVec.extractLsb'_toNat, Nat.shiftRight_eq_div_pow]

theorem aField_toNat (w : Word) : (aField w).toNat = w.toNat / 2 ^ 8 % 2 ^ 8 := by
  simp only [aField, BitVec.extractLsb'_toNat, Nat.shiftRight_eq_div_pow]

theorem dField_toNat (w : Word) : (dField w).toNat = w.toNat / 2 ^ 0 % 2 ^ 8 := by
  simp only [dField, BitVec.extractLsb'_toNat, Nat.shiftRight_eq_div_pow]

@[simp] theorem opField_ofFields (o a d : Byte) : opField (ofFields o a d) = o := by
  apply BitVec.eq_of_toNat_eq
  rw [opField_toNat, ofFields_toNat]
  have := o.isLt; have := a.isLt; have := d.isLt
  omega

@[simp] theorem aField_ofFields (o a d : Byte) : aField (ofFields o a d) = a := by
  apply BitVec.eq_of_toNat_eq
  rw [aField_toNat, ofFields_toNat]
  have := a.isLt; have := d.isLt
  omega

@[simp] theorem dField_ofFields (o a d : Byte) : dField (ofFields o a d) = d := by
  apply BitVec.eq_of_toNat_eq
  rw [dField_toNat, ofFields_toNat]
  have := d.isLt
  omega

/-- A word is made of its own fields. -/
theorem ofFields_fields (w : Word) : ofFields (opField w) (aField w) (dField w) = w := by
  apply BitVec.eq_of_toNat_eq
  rw [ofFields_toNat, opField_toNat, aField_toNat, dField_toNat]
  have := w.isLt
  omega

theorem ofFields_inj (o a d o' a' d' : Byte) : ofFields o a d = ofFields o' a' d' ↔ o = o' ∧ a = a' ∧ d = d' := by
  constructor
  · intro h
    exact ⟨by simpa using congrArg opField h, by simpa using congrArg aField h, by simpa using congrArg dField h⟩
  · rintro ⟨rfl, rfl, rfl⟩; rfl

/-- Masking a word masks its fields. -/
theorem ofFields_and (o a d o' a' d' : Byte) :
    ofFields o a d &&& ofFields o' a' d' = ofFields (o &&& o') (a &&& a') (d &&& d') := by
  unfold ofFields
  simp only [← BitVec.and_append]

end Sys2Proof
end

