-- ==== Sys2Proof/Laws/Memory.lean ====
section
/-! SUPPORT. The device register space: reading after writing, and that every memory operation keeps the canonical form. -/

namespace Sys2Proof.Machine

/-- The canonical form as a rising list: every cell above `lo` and below 16. -/
theorem sortedAbove_mono (m : Memory) : ∀ lo lo' : Nat, lo' ≤ lo → Memory.sortedAbove lo m = true →
    Memory.sortedAbove lo' m = true := by
  cases m with
  | nil => intros; rfl
  | cons c rest =>
    intro lo lo' hle h
    simp only [Memory.sortedAbove, Bool.and_eq_true, decide_eq_true_eq] at h ⊢
    exact ⟨by omega, h.2⟩

theorem memRead_of_sortedAbove (m : Memory) : ∀ lo a : Nat, Memory.sortedAbove lo m = true → a ≤ lo →
    memRead m a = .U := by
  induction m with
  | nil => intros; rfl
  | cons c rest ih =>
    intro lo a h ha
    simp only [Memory.sortedAbove, Bool.and_eq_true, decide_eq_true_eq] at h
    rw [memRead, if_neg (by omega), ih c.1 a h.2 (by omega)]

@[simp] theorem memRead_nil (a : Nat) : memRead [] a = .U := rfl

theorem memRead_memInsert (m : Memory) (a : Nat) (v : Byte) (b : Nat) :
    memRead (memInsert m a v) b = if b = a then .known v else memRead m b := by
  induction m with
  | nil => simp [memInsert, memRead]
  | cons c rest ih =>
    by_cases hlt : a < c.1
    · simp [memInsert, hlt, memRead]
    · by_cases heq : a = c.1
      · subst heq
        by_cases hb : b = c.1 <;> simp [memInsert, memRead, hb]
      · simp only [memInsert, hlt, heq, if_false, memRead, ih]
        by_cases hb : b = c.1
        · rw [if_pos hb, if_pos hb, if_neg (by omega)]
        · rw [if_neg hb, if_neg hb]

theorem memRead_memErase (m : Memory) (a b : Nat) (lo : Nat) (h : Memory.sortedAbove lo m = true) :
    memRead (memErase m a) b = if b = a then .U else memRead m b := by
  induction m generalizing lo with
  | nil => simp [memErase]
  | cons c rest ih =>
    simp only [Memory.sortedAbove, Bool.and_eq_true, decide_eq_true_eq] at h
    by_cases ha : a = c.1
    · subst ha
      by_cases hb : b = c.1
      · subst hb
        simpa [memErase] using memRead_of_sortedAbove rest _ _ h.2 (Nat.le_refl _)
      · simp [memErase, memRead, hb]
    · simp only [memErase, ha, if_false, memRead, ih c.1 h.2]
      by_cases hb : b = c.1
      · rw [if_pos hb, if_pos hb, if_neg (by omega)]
      · rw [if_neg hb, if_neg hb]

theorem sortedAbove_memInsert (m : Memory) (a : Nat) (v : Byte) : ∀ lo, lo < a → Memory.sortedAbove lo m = true →
    Memory.sortedAbove lo (memInsert m a v) = true := by
  induction m with
  | nil => intro lo hlo _; simp [memInsert, Memory.sortedAbove, hlo]
  | cons c rest ih =>
    intro lo hlo h
    simp only [Memory.sortedAbove, Bool.and_eq_true, decide_eq_true_eq] at h
    by_cases hlt : a < c.1
    · simp [memInsert, hlt, Memory.sortedAbove, hlo, h.2]
    · by_cases heq : a = c.1
      · subst heq; simp [memInsert, Memory.sortedAbove, hlo, h.2]
      · simp only [memInsert, hlt, heq, if_false, Memory.sortedAbove, Bool.and_eq_true, decide_eq_true_eq]
        exact ⟨h.1, ih c.1 (by omega) h.2⟩

theorem sortedAbove_memErase (m : Memory) (a : Nat) : ∀ lo, Memory.sortedAbove lo m = true →
    Memory.sortedAbove lo (memErase m a) = true := by
  induction m with
  | nil => intros; rfl
  | cons c rest ih =>
    intro lo h
    simp only [Memory.sortedAbove, Bool.and_eq_true, decide_eq_true_eq] at h
    by_cases ha : a = c.1
    · rw [memErase, if_pos ha]
      exact sortedAbove_mono rest c.1 lo (by omega) h.2
    · rw [memErase, if_neg ha]
      simp only [Memory.sortedAbove, Bool.and_eq_true, decide_eq_true_eq]
      exact ⟨h.1, ih c.1 h.2⟩

theorem mem_memInsert (m : Memory) (a : Nat) (v : Byte) (c : Host.Cell) (h : c ∈ memInsert m a v) :
    c = (a, v) ∨ c ∈ m := by
  induction m with
  | nil => simpa [memInsert] using h
  | cons d rest ih =>
    by_cases hlt : a < d.1
    · simpa [memInsert, hlt] using h
    · by_cases heq : a = d.1
      · simp only [memInsert, heq, if_true, if_false, lt_irrefl, List.mem_cons] at h
        rcases h with h | h
        · exact .inl (by rw [heq]; exact h)
        · exact .inr (List.mem_cons_of_mem _ h)
      · simp only [memInsert, hlt, heq, if_false, List.mem_cons] at h
        rcases h with h | h
        · exact .inr (by simp [h])
        · exact (ih h).imp id (List.mem_cons_of_mem _)

theorem mem_memErase (m : Memory) (a : Nat) (c : Host.Cell) (h : c ∈ memErase m a) : c ∈ m := by
  induction m with
  | nil => exact h
  | cons d rest ih =>
    by_cases ha : a = d.1
    · rw [memErase, if_pos ha] at h
      exact List.mem_cons_of_mem _ h
    · rw [memErase, if_neg ha, List.mem_cons] at h
      rcases h with h | h
      · simp [h]
      · exact List.mem_cons_of_mem _ (ih h)

/-- `Memory.wf` split: the addresses rise, and every one is below 16. -/
theorem wf_iff (m : Memory) : Memory.wf m = true ↔
    (m = [] ∨ ∃ c rest, m = c :: rest ∧ Memory.sortedAbove c.1 rest = true) ∧ ∀ c ∈ m, c.1 < regCount := by
  cases m <;> simp [Memory.wf]

theorem wf_nil : Memory.wf [] = true := rfl

theorem wf_memInsert (m : Memory) (a : Nat) (v : Byte) (ha : a < regCount) (h : Memory.wf m = true) :
    Memory.wf (memInsert m a v) = true := by
  rw [wf_iff] at h ⊢
  refine ⟨?_, fun c hc => ?_⟩
  · right
    rcases h.1 with rfl | ⟨c, rest, rfl, hs⟩
    · exact ⟨_, _, rfl, rfl⟩
    · by_cases hlt : a < c.1
      · exact ⟨(a, v), c :: rest, by simp [memInsert, hlt], by simp [Memory.sortedAbove, hlt, hs]⟩
      · by_cases heq : a = c.1
        · exact ⟨(a, v), rest, by simp [memInsert, heq], by simpa [heq] using hs⟩
        · exact ⟨c, memInsert rest a v, by simp [memInsert, hlt, heq], sortedAbove_memInsert rest a v c.1 (by omega) hs⟩
  · rcases mem_memInsert m a v c hc with rfl | hc
    · exact ha
    · exact h.2 c hc

theorem wf_memErase (m : Memory) (a : Nat) (h : Memory.wf m = true) : Memory.wf (memErase m a) = true := by
  rw [wf_iff] at h ⊢
  refine ⟨?_, fun c hc => h.2 c (mem_memErase m a c hc)⟩
  rcases h.1 with rfl | ⟨c, rest, rfl, hs⟩
  · exact .inl rfl
  · by_cases ha : a = c.1
    · rw [memErase, if_pos ha]
      cases rest with
      | nil => exact .inl rfl
      | cons d rest' =>
        simp only [Memory.sortedAbove, Bool.and_eq_true] at hs
        exact .inr ⟨d, rest', rfl, hs.2⟩
    · rw [memErase, if_neg ha]
      exact .inr ⟨c, _, rfl, sortedAbove_memErase rest a c.1 hs⟩

/-- Every write of the space keeps the canonical form. -/
theorem wf_memWrite (m : Memory) (a : BitVec 4) (v : UVal Byte) (h : Memory.wf m = true) :
    Memory.wf (memWrite m a v) = true := by
  cases v with
  | U => exact wf_memErase m _ h
  | known b => exact wf_memInsert m _ b (by have := a.isLt; unfold regCount; omega) h

theorem memRead_memErase_of_wf (m : Memory) (a b : Nat) (h : Memory.wf m = true) :
    memRead (memErase m a) b = if b = a then .U else memRead m b := by
  rcases ((wf_iff m).1 h).1 with rfl | ⟨c, rest, rfl, hs⟩
  · simp [memErase]
  · by_cases ha : a = c.1
    · subst ha
      rw [memErase, if_pos rfl]
      by_cases hb : b = c.1
      · subst hb
        simpa using memRead_of_sortedAbove rest _ _ hs (Nat.le_refl _)
      · simp [memRead, hb]
    · rw [memErase, if_neg ha]
      simp only [memRead, memRead_memErase rest a b c.1 hs]
      by_cases hb : b = c.1
      · rw [if_pos hb, if_pos hb, if_neg (by omega)]
      · rw [if_neg hb, if_neg hb]

/-- Reading after writing, in a space in canonical form. -/
theorem memRead_memWrite (m : Memory) (a : BitVec 4) (v : UVal Byte) (b : Nat) (h : Memory.wf m = true) :
    memRead (memWrite m a v) b = if b = a.toNat then v else memRead m b := by
  cases v with
  | U => exact memRead_memErase_of_wf m a.toNat b h
  | known v => exact memRead_memInsert m a.toNat v b

/-- A write leaves every other address alone, whatever the form of the space. -/
theorem memRead_memErase_other (m : Memory) (a b : Nat) (hb : b ≠ a) : memRead (memErase m a) b = memRead m b := by
  induction m with
  | nil => rfl
  | cons c rest ih =>
    by_cases ha : a = c.1
    · rw [memErase, if_pos ha, memRead, if_neg (by omega)]
    · rw [memErase, if_neg ha, memRead, memRead, ih]

theorem memRead_memWrite_other (m : Memory) (a : BitVec 4) (v : UVal Byte) (b : Nat) (hb : b ≠ a.toNat) :
    memRead (memWrite m a v) b = memRead m b := by
  cases v with
  | U => exact memRead_memErase_other m a.toNat b hb
  | known v => simp [memWrite, memRead_memInsert, hb]

end Sys2Proof.Machine
end

