-- ==== Sys2Proof/Laws/State.lean ====
section
/-! SUPPORT. One lemma per field per update of the state, and per pin per update of the latches. -/

namespace Sys2Proof.Machine

@[simp] theorem drawPin_params (s : State) : (drawPin s).params = s.params := rfl
@[simp] theorem drawPin_latches (s : State) : (drawPin s).latches = s.latches := rfl
@[simp] theorem drawPin_phase (s : State) : (drawPin s).phase = s.phase := rfl
@[simp] theorem drawPin_fault (s : State) : (drawPin s).fault = s.fault := rfl
@[simp] theorem drawPin_trace (s : State) : (drawPin s).trace = s.trace := rfl
@[simp] theorem drawPin_dev (s : State) : (drawPin s).dev = s.dev := rfl
@[simp] theorem drawPin_commands (s : State) : (drawPin s).commands = s.commands := rfl
@[simp] theorem drawPin_pinAnswers (s : State) : (drawPin s).pinAnswers = s.pinAnswers.tail := rfl
@[simp] theorem drawPin_pinDraws (s : State) : (drawPin s).pinDraws = s.pinDraws + 1 := rfl
@[simp] theorem drawPin_orderChoices (s : State) : (drawPin s).orderChoices = s.orderChoices := rfl
@[simp] theorem drawPin_orderDraws (s : State) : (drawPin s).orderDraws = s.orderDraws := rfl

@[simp] theorem raiseFault_params (f : BlockFault) (s : State) : (raiseFault f s).params = s.params := rfl
@[simp] theorem raiseFault_latches (f : BlockFault) (s : State) : (raiseFault f s).latches = s.latches := rfl
@[simp] theorem raiseFault_phase (f : BlockFault) (s : State) : (raiseFault f s).phase = .idle := rfl
@[simp] theorem raiseFault_fault (f : BlockFault) (s : State) : (raiseFault f s).fault = some f := rfl
@[simp] theorem raiseFault_trace (f : BlockFault) (s : State) : (raiseFault f s).trace = s.trace := rfl
@[simp] theorem raiseFault_dev (f : BlockFault) (s : State) : (raiseFault f s).dev = s.dev := rfl
@[simp] theorem raiseFault_commands (f : BlockFault) (s : State) : (raiseFault f s).commands = s.commands := rfl
@[simp] theorem raiseFault_pinAnswers (f : BlockFault) (s : State) : (raiseFault f s).pinAnswers = s.pinAnswers := rfl
@[simp] theorem raiseFault_pinDraws (f : BlockFault) (s : State) : (raiseFault f s).pinDraws = s.pinDraws := rfl
@[simp] theorem raiseFault_orderChoices (f : BlockFault) (s : State) : (raiseFault f s).orderChoices = s.orderChoices := rfl
@[simp] theorem raiseFault_orderDraws (f : BlockFault) (s : State) : (raiseFault f s).orderDraws = s.orderDraws := rfl

@[simp] theorem raisePinFault_params (p : Pin) (s : State) : (raisePinFault p s).params = s.params := rfl
@[simp] theorem raisePinFault_latches (p : Pin) (s : State) : (raisePinFault p s).latches = setLatch s.latches p .U := rfl
@[simp] theorem raisePinFault_phase (p : Pin) (s : State) : (raisePinFault p s).phase = .idle := rfl
@[simp] theorem raisePinFault_fault (p : Pin) (s : State) : (raisePinFault p s).fault = some (.pinFault p) := rfl
@[simp] theorem raisePinFault_trace (p : Pin) (s : State) : (raisePinFault p s).trace = s.trace := rfl
@[simp] theorem raisePinFault_dev (p : Pin) (s : State) : (raisePinFault p s).dev = s.dev := rfl
@[simp] theorem raisePinFault_commands (p : Pin) (s : State) : (raisePinFault p s).commands = s.commands := rfl
@[simp] theorem raisePinFault_pinAnswers (p : Pin) (s : State) : (raisePinFault p s).pinAnswers = s.pinAnswers := rfl
@[simp] theorem raisePinFault_pinDraws (p : Pin) (s : State) : (raisePinFault p s).pinDraws = s.pinDraws := rfl
@[simp] theorem raisePinFault_orderChoices (p : Pin) (s : State) : (raisePinFault p s).orderChoices = s.orderChoices := rfl
@[simp] theorem raisePinFault_orderDraws (p : Pin) (s : State) : (raisePinFault p s).orderDraws = s.orderDraws := rfl

@[simp] theorem load_params (jobs : List PinJob) (s : State) : (load jobs s).params = s.params := rfl
@[simp] theorem load_latches (jobs : List PinJob) (s : State) : (load jobs s).latches = s.latches := rfl
@[simp] theorem load_phase (jobs : List PinJob) (s : State) : (load jobs s).phase = .run 0 jobs (modeOf s.latches) := rfl
@[simp] theorem load_fault (jobs : List PinJob) (s : State) : (load jobs s).fault = s.fault := rfl
@[simp] theorem load_trace (jobs : List PinJob) (s : State) : (load jobs s).trace = s.trace := rfl
@[simp] theorem load_dev (jobs : List PinJob) (s : State) : (load jobs s).dev = s.dev := rfl
@[simp] theorem load_commands (jobs : List PinJob) (s : State) : (load jobs s).commands = s.commands := rfl
@[simp] theorem load_pinAnswers (jobs : List PinJob) (s : State) : (load jobs s).pinAnswers = s.pinAnswers := rfl
@[simp] theorem load_pinDraws (jobs : List PinJob) (s : State) : (load jobs s).pinDraws = s.pinDraws := rfl
@[simp] theorem load_orderChoices (jobs : List PinJob) (s : State) : (load jobs s).orderChoices = s.orderChoices := rfl
@[simp] theorem load_orderDraws (jobs : List PinJob) (s : State) : (load jobs s).orderDraws = s.orderDraws := rfl

@[simp] theorem commitPin_params (j : PinJob) (k : Nat) (rest : List PinJob) (b : UVal BusMode) (s : State) : (commitPin j k rest b s).params = s.params := rfl
@[simp] theorem commitPin_latches (j : PinJob) (k : Nat) (rest : List PinJob) (b : UVal BusMode) (s : State) : (commitPin j k rest b s).latches = setLatch s.latches j.pin (.known j.level) := rfl
@[simp] theorem commitPin_phase (j : PinJob) (k : Nat) (rest : List PinJob) (b : UVal BusMode) (s : State) : (commitPin j k rest b s).phase = 
      match rest with
      | [] => .idle
      | _ :: _ => .run (k + 1) rest (if j.closes then modeOf (setLatch s.latches j.pin (.known j.level)) else b) := rfl
@[simp] theorem commitPin_fault (j : PinJob) (k : Nat) (rest : List PinJob) (b : UVal BusMode) (s : State) : (commitPin j k rest b s).fault = s.fault := rfl
@[simp] theorem commitPin_trace (j : PinJob) (k : Nat) (rest : List PinJob) (b : UVal BusMode) (s : State) : (commitPin j k rest b s).trace = s.trace ++ [jobEvent j] := rfl
@[simp] theorem commitPin_dev (j : PinJob) (k : Nat) (rest : List PinJob) (b : UVal BusMode) (s : State) : (commitPin j k rest b s).dev = 
      observe s.params.obsGranularity s.dev b s.latches (setLatch s.latches j.pin (.known j.level)) j := rfl
@[simp] theorem commitPin_commands (j : PinJob) (k : Nat) (rest : List PinJob) (b : UVal BusMode) (s : State) : (commitPin j k rest b s).commands = s.commands := rfl
@[simp] theorem commitPin_pinAnswers (j : PinJob) (k : Nat) (rest : List PinJob) (b : UVal BusMode) (s : State) : (commitPin j k rest b s).pinAnswers = s.pinAnswers := rfl
@[simp] theorem commitPin_pinDraws (j : PinJob) (k : Nat) (rest : List PinJob) (b : UVal BusMode) (s : State) : (commitPin j k rest b s).pinDraws = s.pinDraws := rfl
@[simp] theorem commitPin_orderChoices (j : PinJob) (k : Nat) (rest : List PinJob) (b : UVal BusMode) (s : State) : (commitPin j k rest b s).orderChoices = s.orderChoices := rfl
@[simp] theorem commitPin_orderDraws (j : PinJob) (k : Nat) (rest : List PinJob) (b : UVal BusMode) (s : State) : (commitPin j k rest b s).orderDraws = s.orderDraws := rfl

@[simp] theorem presentWord_params (w : Word) (s : State) : (presentWord w s).params = s.params := rfl
@[simp] theorem presentWord_latches (w : Word) (s : State) : (presentWord w s).latches = s.latches := rfl
@[simp] theorem presentWord_phase (w : Word) (s : State) : (presentWord w s).phase = .idle := rfl
@[simp] theorem presentWord_fault (w : Word) (s : State) : (presentWord w s).fault = none := rfl
@[simp] theorem presentWord_trace (w : Word) (s : State) : (presentWord w s).trace = s.trace := rfl
@[simp] theorem presentWord_dev (w : Word) (s : State) : (presentWord w s).dev = s.dev := rfl
@[simp] theorem presentWord_commands (w : Word) (s : State) : (presentWord w s).commands = .word w :: s.commands := rfl
@[simp] theorem presentWord_pinAnswers (w : Word) (s : State) : (presentWord w s).pinAnswers = s.pinAnswers := rfl
@[simp] theorem presentWord_pinDraws (w : Word) (s : State) : (presentWord w s).pinDraws = s.pinDraws := rfl
@[simp] theorem presentWord_orderChoices (w : Word) (s : State) : (presentWord w s).orderChoices = s.orderChoices := rfl
@[simp] theorem presentWord_orderDraws (w : Word) (s : State) : (presentWord w s).orderDraws = s.orderDraws := rfl

@[simp] theorem drawOrders_params (s : State) (n : Nat) : (drawOrders s n).params = s.params := by
  unfold drawOrders; split <;> rfl
@[simp] theorem drawOrders_latches (s : State) (n : Nat) : (drawOrders s n).latches = s.latches := by
  unfold drawOrders; split <;> rfl
@[simp] theorem drawOrders_phase (s : State) (n : Nat) : (drawOrders s n).phase = s.phase := by
  unfold drawOrders; split <;> rfl
@[simp] theorem drawOrders_fault (s : State) (n : Nat) : (drawOrders s n).fault = s.fault := by
  unfold drawOrders; split <;> rfl
@[simp] theorem drawOrders_trace (s : State) (n : Nat) : (drawOrders s n).trace = s.trace := by
  unfold drawOrders; split <;> rfl
@[simp] theorem drawOrders_dev (s : State) (n : Nat) : (drawOrders s n).dev = s.dev := by
  unfold drawOrders; split <;> rfl
@[simp] theorem drawOrders_commands (s : State) (n : Nat) : (drawOrders s n).commands = s.commands := by
  unfold drawOrders; split <;> rfl
@[simp] theorem drawOrders_pinAnswers (s : State) (n : Nat) : (drawOrders s n).pinAnswers = s.pinAnswers := by
  unfold drawOrders; split <;> rfl
@[simp] theorem drawOrders_pinDraws (s : State) (n : Nat) : (drawOrders s n).pinDraws = s.pinDraws := by
  unfold drawOrders; split <;> rfl

theorem drawOrders_any (s : State) (n : Nat) (h : s.params.ctlOrder = .any) :
    drawOrders s n = { s with orderChoices := s.orderChoices.drop n, orderDraws := s.orderDraws + n } := by
  simp [drawOrders, h]

theorem drawOrders_fixed (s : State) (n : Nat) (h : s.params.ctlOrder ≠ .any) : drawOrders s n = s := by
  unfold drawOrders
  split <;> simp_all

@[simp] theorem getLatch_setLatch_same (l : Latches) (p : Pin) (x : Latch) : getLatch (setLatch l p x) p = x := by
  cases p <;> rfl

theorem getLatch_setLatch_other (l : Latches) (p q : Pin) (x : Latch) (h : q ≠ p) :
    getLatch (setLatch l p x) q = getLatch l q := by
  cases p <;> cases q <;> first | rfl | exact absurd rfl h

theorem getLatch_setLatch (l : Latches) (p q : Pin) (x : Latch) :
    getLatch (setLatch l p x) q = if q = p then x else getLatch l q := by
  by_cases h : q = p
  · subst h; simp
  · simp [h, getLatch_setLatch_other l p q x h]

/-- Latches are equal when every pin's is. -/
theorem latches_ext (l m : Latches) (h : ∀ p, getLatch l p = getLatch m p) : l = m := by
  cases l; cases m
  simpa [getLatch] using And.intro (h .d0) ⟨h .d1, h .d2, h .d3, h .d4, h .d5, h .d6, h .d7, h .bdir, h .bc1, h .rst⟩

@[simp] theorem setLatch_d0 (l : Latches) (x : Latch) : setLatch l .d0 x = { l with d0 := x } := rfl
@[simp] theorem setLatch_d1 (l : Latches) (x : Latch) : setLatch l .d1 x = { l with d1 := x } := rfl
@[simp] theorem setLatch_d2 (l : Latches) (x : Latch) : setLatch l .d2 x = { l with d2 := x } := rfl
@[simp] theorem setLatch_d3 (l : Latches) (x : Latch) : setLatch l .d3 x = { l with d3 := x } := rfl
@[simp] theorem setLatch_d4 (l : Latches) (x : Latch) : setLatch l .d4 x = { l with d4 := x } := rfl
@[simp] theorem setLatch_d5 (l : Latches) (x : Latch) : setLatch l .d5 x = { l with d5 := x } := rfl
@[simp] theorem setLatch_d6 (l : Latches) (x : Latch) : setLatch l .d6 x = { l with d6 := x } := rfl
@[simp] theorem setLatch_d7 (l : Latches) (x : Latch) : setLatch l .d7 x = { l with d7 := x } := rfl
@[simp] theorem setLatch_bdir (l : Latches) (x : Latch) : setLatch l .bdir x = { l with bdir := x } := rfl
@[simp] theorem setLatch_bc1 (l : Latches) (x : Latch) : setLatch l .bc1 x = { l with bc1 := x } := rfl
@[simp] theorem setLatch_rst (l : Latches) (x : Latch) : setLatch l .rst x = { l with rst := x } := rfl

end Sys2Proof.Machine
end

