-- ==== Sys2Proof/Laws/Ops.lean ====
section
/-! SUPPORT. What each shared operation can do, said once: the gate of a command, the pin write, the running of a pin-write
list, the derived views of the latches, and the device observer. -/

namespace Sys2Proof.Machine

open Sys2Proof.Safety

/-! ### The gate -/

/-- A command answers a next state exactly in a block that is idle and not faulted, and then its effect. -/
theorem command_eq_next (f : State → State) (s t : State) :
    command f s = .next t ↔ s.fault = none ∧ s.phase = .idle ∧ t = f s := by
  unfold command
  split
  · next h => simp [h]
  · next h =>
    split
    · next hp => simp [hp]
    · next hp =>
      simp only [h, hp, Host.Outcome.next.injEq, true_and]
      exact ⟨Eq.symm, Eq.symm⟩

theorem command_ready (f : State → State) (s : State) (h : Ready s) : command f s = .next (f s) :=
  (command_eq_next f s _).2 ⟨h.1, h.2, rfl⟩

/-- Every command is its accepting step, then its pin writes. -/
theorem exec_eq_command (i : Instr) (s : State) : exec i s = command (fun s => complete (start i s)) s := by
  cases i <;> rfl

theorem exec_ready (i : Instr) (s : State) (h : Ready s) : exec i s = .next (complete (start i s)) := by
  rw [exec_eq_command, command_ready _ s h]

theorem exec_eq_next (i : Instr) (s t : State) :
    exec i s = .next t ↔ s.fault = none ∧ s.phase = .idle ∧ t = complete (start i s) := by
  rw [exec_eq_command, command_eq_next]

/-! ### Draws -/

/-- Drawing one answer moves the answers up by one. -/
theorem pinAnswer_drawPin (s : State) (k : Nat) : pinAnswer (drawPin s) k = pinAnswer s (k + 1) := by
  unfold pinAnswer
  rw [drawPin_pinAnswers, drawPin_pinDraws, List.getElem?_tail]
  cases s.pinAnswers[k + 1]? with
  | some b => rfl
  | none => exact congrArg Config.pinOk (by omega)

theorem pinAnswer_congr (s t : State) (h1 : t.pinAnswers = s.pinAnswers) (h2 : t.pinDraws = s.pinDraws) (k : Nat) :
    pinAnswer t k = pinAnswer s k := by
  unfold pinAnswer; rw [h1, h2]

/-- A pin write draws one answer. -/
theorem pinAnswer_commitPin (j : PinJob) (k : Nat) (rest : List PinJob) (b : UVal BusMode) (s : State) (i : Nat) :
    pinAnswer (commitPin j k rest b (drawPin s)) i = pinAnswer s (i + 1) :=
  (pinAnswer_congr (drawPin s) (commitPin j k rest b (drawPin s)) rfl rfl i).trans (pinAnswer_drawPin s i)

/-! ### The pin write -/

@[simp] theorem pinStep_idle (s : State) (h : s.phase = .idle) : pinStep s = s := by
  unfold pinStep; rw [h]

@[simp] theorem pinSteps_idle (n : Nat) (s : State) (h : s.phase = .idle) : pinSteps n s = s := by
  induction n generalizing s with
  | zero => rfl
  | succ n ih => rw [pinSteps, pinStep_idle s h, ih s h]

theorem pinSteps_add (m n : Nat) (s : State) : pinSteps (m + n) s = pinSteps n (pinSteps m s) := by
  induction m generalizing s with
  | zero => rw [Nat.zero_add]; rfl
  | succ m ih => rw [Nat.succ_add]; exact ih (pinStep s)

/-- What one step of a running command can be: nothing left, a successful write, or a failed one. -/
theorem pinStep_run (s : State) (k : Nat) (j : PinJob) (rest : List PinJob) (b : UVal BusMode)
    (h : s.phase = .run k (j :: rest) b) :
    pinStep s = if pinAnswer s 0 then commitPin j k rest b (drawPin s) else raisePinFault j.pin (drawPin s) := by
  unfold pinStep; rw [h]

/-- An invariant of the sequencer: what every pin write, done or failed, keeps is kept by every run of them. -/
theorem pinSteps_keeps (P : State → Prop) (hstep : ∀ s, P s → P (pinStep s)) (n : Nat) (s : State) (h : P s) :
    P (pinSteps n s) := by
  induction n generalizing s with
  | zero => exact h
  | succ n ih => exact ih _ (hstep s h)

theorem complete_keeps (P : State → Prop) (hstep : ∀ s, P s → P (pinStep s)) (s : State) (h : P s) : P (complete s) := by
  unfold complete
  split
  · exact h
  · exact pinSteps_keeps P hstep _ s h

/-- What a pin write keeps, from what a successful and a failed one keep. -/
theorem pinStep_keeps (P : State → Prop) (hidle : ∀ s, P s → P { s with phase := .idle })
    (hdone : ∀ s k j rest b, s.phase = .run k (j :: rest) b → P s → P (commitPin j k rest b (drawPin s)))
    (hfail : ∀ s k j rest b, s.phase = .run k (j :: rest) b → P s → P (raisePinFault j.pin (drawPin s)))
    (s : State) (h : P s) : P (pinStep s) := by
  unfold pinStep
  split
  · exact h
  · exact hidle s h
  · next k j rest b hp =>
    split
    · exact hdone s k j rest b hp h
    · exact hfail s k j rest b hp h

/-! ### A whole list of pin writes -/

/-- A list of pin writes that all succeed, one after another. -/
def commitAll : List PinJob → Nat → UVal BusMode → State → State
  | [], _, _, s => s
  | j :: rest, k, b, s =>
    commitAll rest (k + 1) (if j.closes then modeOf (setLatch s.latches j.pin (.known j.level)) else b)
      (commitPin j k rest b (drawPin s))

/-- A running command whose writes all succeed is `commitAll`. -/
theorem pinSteps_infallible (todo : List PinJob) : ∀ (k : Nat) (b : UVal BusMode) (s : State),
    s.phase = .run k todo b → PinsInfallible s todo.length → pinSteps todo.length s = commitAll todo k b s := by
  induction todo with
  | nil => intros; rfl
  | cons j rest ih =>
    intro k b s hp hok
    have h0 : pinAnswer s 0 = true := hok 0 (by simp)
    rw [List.length_cons, pinSteps, pinStep_run s k j rest b hp, if_pos h0, commitAll]
    cases rest with
    | nil => rfl
    | cons j' rest' =>
      refine ih (k + 1) _ _ rfl fun i hi => ?_
      rw [pinAnswer_commitPin]
      exact hok (i + 1) (by simpa using hi)

/-- A loaded command whose writes all succeed. -/
theorem complete_load_infallible (jobs : List PinJob) (s : State) (hok : PinsInfallible s jobs.length) :
    complete (load jobs s) = commitAll jobs 0 (modeOf s.latches) (load jobs s) := by
  unfold complete
  exact pinSteps_infallible jobs 0 (modeOf s.latches) (load jobs s) rfl hok

/-- A running command whose first writes succeed and whose next one fails is cut there. -/
theorem pinSteps_cut (done : List PinJob) : ∀ (j : PinJob) (rest : List PinJob) (k : Nat) (b : UVal BusMode) (s : State),
    s.phase = .run k (done ++ j :: rest) b → (∀ i < done.length, pinAnswer s i = true) →
    pinAnswer s done.length = false →
    ∃ u, pinSteps (done ++ j :: rest).length s = raisePinFault j.pin u
      ∧ u.latches = done.foldl (fun l d => setLatch l d.pin (.known d.level)) s.latches
      ∧ u.trace = s.trace ++ done.map jobEvent
      ∧ u.params = s.params ∧ u.commands = s.commands ∧ u.pinDraws = s.pinDraws + done.length + 1
      ∧ u.orderDraws = s.orderDraws ∧ u.orderChoices = s.orderChoices
      ∧ u.pinAnswers = s.pinAnswers.drop (done.length + 1) := by
  induction done with
  | nil =>
    intro j rest k b s hp _ hbad
    refine ⟨drawPin s, ?_, rfl, by simp, rfl, rfl, rfl, rfl, rfl, by simp⟩
    rw [List.nil_append, List.length_cons, pinSteps, pinStep_run s k j rest b hp, if_neg (by simpa using hbad)]
    exact pinSteps_idle _ _ rfl
  | cons d done ih =>
    intro j rest k b s hp hok hbad
    have h0 : pinAnswer s 0 = true := hok 0 (by simp)
    have hans : ∀ i, pinAnswer (commitPin d k (done ++ j :: rest) b (drawPin s)) i = pinAnswer s (i + 1) :=
      pinAnswer_commitPin d k _ b s
    obtain ⟨u, hu, hl, ht, hpar, hcmd, hdr, ho, hoc, hpa⟩ :=
      ih j rest (k + 1) (if d.closes then modeOf (setLatch s.latches d.pin (.known d.level)) else b)
        (commitPin d k (done ++ j :: rest) b (drawPin s)) (by cases done <;> rfl)
        (fun i hi => by rw [hans]; exact hok (i + 1) (by simpa using hi)) (by rw [hans]; simpa using hbad)
    refine ⟨u, ?_, by rw [hl]; rfl, by rw [ht]; simp, hpar, hcmd, by rw [hdr]; simp; omega, ho, hoc, by rw [hpa]; simp⟩
    rw [← hu, List.cons_append, List.length_cons, pinSteps, pinStep_run s k d (done ++ j :: rest) b hp, if_pos h0]

/-! ### Derived views -/

/-- The table `LEVELS` is injective and onto: the mode of a mode's own levels is that mode (30_encoding.md R50). -/
@[simp] theorem modeOfLevels_levels (m : BusMode) : modeOfLevels (levels m).1 (levels m).2 = .known m := by
  cases m <;> rfl

theorem modeOf_known (l : Latches) (m : BusMode) (hb : l.bdir = .known (levels m).1) (hc : l.bc1 = .known (levels m).2) :
    modeOf l = .known m := by
  unfold modeOf; rw [hb, hc]; exact modeOfLevels_levels m

/-- The mode depends on the control latches only. -/
theorem modeOf_congr (l m : Latches) (hb : l.bdir = m.bdir) (hc : l.bc1 = m.bc1) : modeOf l = modeOf m := by
  unfold modeOf; rw [hb, hc]

/-- The bus byte depends on the data latches only. -/
theorem busOf_congr (l m : Latches) (h0 : l.d0 = m.d0) (h1 : l.d1 = m.d1) (h2 : l.d2 = m.d2) (h3 : l.d3 = m.d3)
    (h4 : l.d4 = m.d4) (h5 : l.d5 = m.d5) (h6 : l.d6 = m.d6) (h7 : l.d7 = m.d7) : busOf l = busOf m := by
  unfold busOf; rw [h0, h1, h2, h3, h4, h5, h6, h7]

theorem byteOfLevels_bits : ∀ v : Byte, byteOfLevels (lvl (v.getLsbD 0)) (lvl (v.getLsbD 1)) (lvl (v.getLsbD 2))
    (lvl (v.getLsbD 3)) (lvl (v.getLsbD 4)) (lvl (v.getLsbD 5)) (lvl (v.getLsbD 6)) (lvl (v.getLsbD 7)) = v := by
  decide

/-- Eight data latches at the levels of a byte's bits carry that byte (30_encoding.md R52). -/
theorem busOf_bits (l : Latches) (v : Byte) (h0 : l.d0 = .known (lvl (v.getLsbD 0))) (h1 : l.d1 = .known (lvl (v.getLsbD 1)))
    (h2 : l.d2 = .known (lvl (v.getLsbD 2))) (h3 : l.d3 = .known (lvl (v.getLsbD 3)))
    (h4 : l.d4 = .known (lvl (v.getLsbD 4))) (h5 : l.d5 = .known (lvl (v.getLsbD 5)))
    (h6 : l.d6 = .known (lvl (v.getLsbD 6))) (h7 : l.d7 = .known (lvl (v.getLsbD 7))) : busOf l = .known v := by
  unfold busOf
  rw [h0, h1, h2, h3, h4, h5, h6, h7]
  exact congrArg UVal.known (byteOfLevels_bits v)

/-! ### Operand forms -/

theorem clampAddr_toNat (a : Byte) : (clampAddr a).toNat = min a.toNat 15 := by
  unfold clampAddr
  rw [BitVec.toNat_ofNat]
  omega

/-- The byte of the address phase latches the clamped address (30_encoding.md R53). -/
theorem latchOfBus_addressByte (a : Byte) : latchOfBus (.known (addressByte a)) = .known (clampAddr a) := by
  unfold addressByte
  generalize clampAddr a = r
  revert r; decide

@[simp] theorem busJobs_length (v : Byte) : (busJobs v).length = 8 := rfl

@[simp] theorem modeJobs_length (m : BusMode) (o : ControlOrder) : (modeJobs m o).length = 2 := by cases o <;> rfl

@[simp] theorem regJobs_length (a v : Byte) (o1 o2 o3 o4 : ControlOrder) : (regJobs a v o1 o2 o3 o4).length = 24 := by
  simp [regJobs]

/-! ### The device observer -/

/-- Every edge keeps the canonical form of the device image. -/
theorem wf_devEdge (d : Dev) (old : UVal BusMode) (b : UVal Byte) (new : UVal BusMode) (h : Memory.wf d.regs = true) :
    Memory.wf (devEdge d old b new).regs = true := by
  unfold devEdge
  split
  · split
    · exact h
    · unfold devEdgeKnown
      split
      · exact h
      · unfold commitData
        dsimp only
        split
        · rfl
        · exact wf_memWrite _ _ _ h
      · exact h
      · exact h
  · exact h

theorem wf_observe (g : Granularity) (d : Dev) (b : UVal BusMode) (pre post : Latches) (j : PinJob)
    (h : Memory.wf d.regs = true) : Memory.wf (observe g d b pre post j).regs = true := by
  unfold observe
  split
  · split
    · exact wf_devEdge _ _ _ _ h
    · split
      · exact wf_devEdge _ _ _ _ h
      · exact h
  · split
    · exact wf_devEdge _ _ _ _ h
    · split
      · exact wf_devEdge _ _ _ _ h
      · exact h
  · split
    · rfl
    · exact h
  all_goals exact h

/-- No edge clears the hazard mark. -/
theorem hazard_devEdge (d : Dev) (old : UVal BusMode) (b : UVal Byte) (new : UVal BusMode) (h : d.hazard = true) :
    (devEdge d old b new).hazard = true := by
  unfold devEdge
  split
  · split
    · exact h
    · unfold devEdgeKnown
      split
      · simp [h]
      · unfold commitData
        dsimp only
        split <;> simp [h]
      · simp [h]
      · simp [h]
  · exact h

theorem hazard_observe (g : Granularity) (d : Dev) (b : UVal BusMode) (pre post : Latches) (j : PinJob)
    (h : d.hazard = true) : (observe g d b pre post j).hazard = true := by
  unfold observe
  split
  · split
    · exact hazard_devEdge _ _ _ _ h
    · split
      · exact hazard_devEdge _ _ _ _ h
      · exact h
  · split
    · exact hazard_devEdge _ _ _ _ h
    · split
      · exact hazard_devEdge _ _ _ _ h
      · exact h
  · split <;> exact h
  all_goals exact h

end Sys2Proof.Machine
end

