-- ==== Sys2Proof/Laws/Step.lean ====
section
/-! SUPPORT. What a step can do, said once: the inversion of `step`, of the accepting step of a command, and the completed
forms of the pin-write lists. -/

namespace Sys2Proof.Machine

open Sys2Proof.Safety

/-- What a step that answers a next state did: a pin write of a running command, a whole command, a recorded fault, or an
expansion. -/
theorem step_cases (s t : State) (h : step s = .next t) :
    s.fault = none ∧
    ((s.phase ≠ .idle ∧ t = pinStep s)
      ∨ (s.phase = .idle ∧ ∃ i rest, t = complete (start i { s with commands := rest }))
      ∨ (s.phase = .idle ∧ ∃ f rest, t = raiseFault f { s with commands := rest })
      ∨ (s.phase = .idle ∧ ∃ cs, t = { s with commands := cs })) := by
  unfold step portStep at h
  split at h
  · simp at h
  next hf =>
  refine ⟨hf, ?_⟩
  split at h
  · next hp => exact .inl ⟨by simp [hp], by simpa using h.symm⟩
  next hp =>
  split at h
  · simp at h
  next c rest hc =>
  right
  unfold takeCommand at h
  split at h
  · split at h
    · next i hi => exact .inl ⟨hp, i, rest, ((exec_eq_next _ _ _).1 h).2.2⟩
    · exact .inr (.inl ⟨hp, _, rest, by simpa using h.symm⟩)
  · split at h
    · exact .inr (.inr ⟨hp, _, by simpa using h.symm⟩)
    · exact .inr (.inl ⟨hp, _, rest, by simpa using h.symm⟩)

theorem drawOrders_zero (s : State) : drawOrders s 0 = s := by
  unfold drawOrders; split <;> rfl

/-- What the accepting step of a command can be: a fault before any pin write, or a list of as many pin writes as the command
has, the reset line among them only where there is one. -/
theorem start_cases (i : Instr) (s : State) :
    (∃ c, start i s = raiseFault (.unsupported c) s) ∨
    ∃ jobs n, start i s = load jobs (drawOrders s n) ∧ jobs ≠ [] ∧ jobs.length = pinWrites i ∧ pinWrites i ≤ 24
      ∧ (s.params.hasResetLine = false → ∀ j ∈ jobs, j.pin ≠ .rst) := by
  have mode : ∀ m : BusMode, ∃ jobs n, startSetMode m s = load jobs (drawOrders s n) ∧ jobs ≠ [] ∧ jobs.length = 2
      ∧ 2 ≤ 24 ∧ (s.params.hasResetLine = false → ∀ j ∈ jobs, j.pin ≠ .rst) := fun m =>
    ⟨_, _, rfl, by cases controlOrder s 0 <;> simp [modeJobs]⟩
  cases i with
  | setmodeRead => exact .inl ⟨_, rfl⟩
  | rdreg a => exact .inl ⟨_, rfl⟩
  | setmodeInactive => exact .inr (mode .inactive)
  | setmodeWrite => exact .inr (mode .write)
  | setmodeAddress => exact .inr (mode .address)
  | wrbus v =>
    refine .inr ⟨busJobs v, 0, ?_, by simp [busJobs, plainJob, pinWrites]⟩
    rw [drawOrders_zero]; rfl
  | wrreg a v =>
    refine .inr ⟨_, _, rfl, ?_⟩
    cases controlOrder s 0 <;> cases controlOrder s 1 <;> cases controlOrder s 2 <;> cases controlOrder s 3 <;>
      simp [regJobs, modeJobs, busJobs, plainJob, pinWrites]
  | setrst l =>
    by_cases h : s.params.hasResetLine = true
    · refine .inr ⟨[plainJob .rst l], 0, ?_, by simp [h, pinWrites]⟩
      rw [drawOrders_zero]; exact if_pos h
    · exact .inl ⟨.noResetLine, if_neg h⟩

end Sys2Proof.Machine
end

