-- ==== Sys2Proof/Laws/Jobs.lean ====
section
/-! SUPPORT. A list of pin writes that all succeed, in closed form, field by field; and that form for the lists of a mode change
and of a bus write. -/

namespace Sys2Proof.Machine

open Sys2Proof.Safety

/-- The latches after a list of successful pin writes. -/
def latchAll (jobs : List PinJob) (l : Latches) : Latches := jobs.foldl (fun l j => setLatch l j.pin (.known j.level)) l

/-- The mode before the mode change in progress, after a list of successful pin writes. -/
def beforeAll : List PinJob → UVal BusMode → Latches → UVal BusMode
  | [], b, _ => b
  | j :: rest, b, l =>
    beforeAll rest (if j.closes then modeOf (setLatch l j.pin (.known j.level)) else b) (setLatch l j.pin (.known j.level))

/-- The device image after a list of successful pin writes. -/
def observeAll (g : Granularity) : List PinJob → UVal BusMode → Latches → Dev → Dev
  | [], _, _, d => d
  | j :: rest, b, l, d =>
    observeAll g rest (if j.closes then modeOf (setLatch l j.pin (.known j.level)) else b) (setLatch l j.pin (.known j.level))
      (observe g d b l (setLatch l j.pin (.known j.level)) j)

theorem latchAll_append (xs ys : List PinJob) (l : Latches) : latchAll (xs ++ ys) l = latchAll ys (latchAll xs l) :=
  List.foldl_append

theorem beforeAll_append (xs ys : List PinJob) : ∀ (b : UVal BusMode) (l : Latches),
    beforeAll (xs ++ ys) b l = beforeAll ys (beforeAll xs b l) (latchAll xs l) := by
  induction xs with
  | nil => intros; rfl
  | cons j xs ih => intro b l; exact ih _ _

theorem observeAll_append (g : Granularity) (xs ys : List PinJob) : ∀ (b : UVal BusMode) (l : Latches) (d : Dev),
    observeAll g (xs ++ ys) b l d = observeAll g ys (beforeAll xs b l) (latchAll xs l) (observeAll g xs b l d) := by
  induction xs with
  | nil => intros; rfl
  | cons j xs ih => intro b l d; exact ih _ _ _

/-- `commitAll` in closed form. -/
theorem commitAll_eq (jobs : List PinJob) : ∀ (k : Nat) (b : UVal BusMode) (s : State), jobs ≠ [] →
    commitAll jobs k b s =
      { spendPins s jobs.length with
        phase := .idle, latches := latchAll jobs s.latches, trace := s.trace ++ jobs.map jobEvent,
        dev := observeAll s.params.obsGranularity jobs b s.latches s.dev } := by
  induction jobs with
  | nil => intro _ _ _ h; exact absurd rfl h
  | cons j rest ih =>
    intro k b s _
    cases rest with
    | nil => simp [commitAll, commitPin, drawPin, spendPins, latchAll, observeAll]
    | cons j' rest' =>
      rw [commitAll, ih _ _ _ (by simp)]
      simp [commitPin, drawPin, spendPins, latchAll, observeAll, Nat.add_assoc, Nat.add_comm]

/-- What any run of a pin-write list leaves, complete or cut: the writes before the cut done, the failed one's latch `U`
(60_exceptions.md R114), and at the cut the first answer that is false. -/
theorem pinSteps_outcome (todo : List PinJob) : ∀ (k : Nat) (b : UVal BusMode) (s : State), todo ≠ [] →
    s.phase = .run k todo b →
    ∃ n ≤ todo.length,
      (pinSteps todo.length s).dev = observeAll s.params.obsGranularity (todo.take n) b s.latches s.dev
      ∧ (pinSteps todo.length s).trace = s.trace ++ (todo.take n).map jobEvent
      ∧ (pinSteps todo.length s).phase = .idle
      ∧ ((n = todo.length ∧ (pinSteps todo.length s).fault = s.fault
            ∧ (pinSteps todo.length s).latches = latchAll todo s.latches)
        ∨ ∃ j, todo[n]? = some j ∧ (∀ m < n, pinAnswer s m = true) ∧ pinAnswer s n = false
            ∧ (pinSteps todo.length s).fault = some (.pinFault j.pin)
            ∧ (pinSteps todo.length s).latches = setLatch (latchAll (todo.take n) s.latches) j.pin .U) := by
  induction todo with
  | nil => intro _ _ _ h; exact absurd rfl h
  | cons j rest ih =>
    intro k b s _ hp
    rw [List.length_cons, pinSteps, pinStep_run s k j rest b hp]
    by_cases h0 : pinAnswer s 0 = true
    · rw [if_pos h0]
      cases rest with
      | nil => exact ⟨1, by simp, rfl, rfl, rfl, .inl ⟨rfl, rfl, rfl⟩⟩
      | cons j' rest' =>
        obtain ⟨n, hn, hd, ht, hi, h⟩ := ih (k + 1)
          (if j.closes then modeOf (setLatch s.latches j.pin (.known j.level)) else b)
          (commitPin j k (j' :: rest') b (drawPin s)) (by simp) rfl
        refine ⟨n + 1, by simpa using hn, hd, by rw [ht]; simp, hi, ?_⟩
        rcases h with ⟨hn, hf, hl⟩ | ⟨q, hq, hok, hbad, hf, hl⟩
        · exact .inl ⟨by simp [hn], hf, hl⟩
        · rw [pinAnswer_commitPin] at hbad
          refine .inr ⟨q, by simpa using hq, fun m hm => ?_, hbad, hf, hl⟩
          cases m with
          | zero => exact h0
          | succ m => exact (pinAnswer_commitPin j k _ b s m).symm.trans (hok m (by omega))
    · rw [if_neg h0, pinSteps_idle _ _ rfl]
      exact ⟨0, by simp, rfl, by simp, rfl, .inr ⟨j, rfl, by simp, by simpa using h0, rfl, rfl⟩⟩

theorem pinAnswer_drawOrders (s : State) (n k : Nat) : pinAnswer (drawOrders s n) k = pinAnswer s k :=
  pinAnswer_congr s _ (drawOrders_pinAnswers s n) (drawOrders_pinDraws s n) k

/-- A command whose accepting step is a list of pin writes that all succeed. -/
theorem exec_infallible (i : Instr) (s : State) (jobs : List PinJob) (n : Nat) (hr : Ready s)
    (hstart : start i s = load jobs (drawOrders s n)) (hne : jobs ≠ []) (hok : PinsInfallible s jobs.length) :
    exec i s = .next { spendPins (drawOrders s n) jobs.length with
      latches := latchAll jobs s.latches, trace := s.trace ++ jobs.map jobEvent,
      dev := observeAll s.params.obsGranularity jobs (modeOf s.latches) s.latches s.dev } := by
  have hidle : s.phase = .idle := hr.2
  rw [exec_ready i s hr, hstart,
    complete_load_infallible jobs _ fun k hk => (pinAnswer_drawOrders s n k).trans (hok k hk), commitAll_eq _ _ _ _ hne]
  simp [spendPins, load, hidle]

/-- The same for a command that draws no control order. -/
theorem exec_infallible_plain (i : Instr) (s : State) (jobs : List PinJob) (hr : Ready s) (hstart : start i s = load jobs s)
    (hne : jobs ≠ []) (hok : PinsInfallible s jobs.length) :
    exec i s = .next { spendPins s jobs.length with
      latches := latchAll jobs s.latches, trace := s.trace ++ jobs.map jobEvent,
      dev := observeAll s.params.obsGranularity jobs (modeOf s.latches) s.latches s.dev } := by
  have h := exec_infallible i s jobs 0 hr (by rw [drawOrders_zero]; exact hstart) hne hok
  rwa [drawOrders_zero] at h

theorem start_setmode (m : BusMode) (s : State) (hm : m ≠ .read) :
    start (setmode m) s = load (modeJobs m (controlOrder s 0)) (drawOrders s 1) := by
  cases m <;> first | rfl | exact absurd rfl hm

theorem modeJobs_ne_nil (m : BusMode) (o : ControlOrder) : modeJobs m o ≠ [] := by cases o <;> simp [modeJobs]

/-! ### The lists of a mode change and of a bus write -/

theorem modeJobs_events (m : BusMode) (o : ControlOrder) : (modeJobs m o).map jobEvent = modeEvents m o := by
  cases o <;> rfl

theorem busJobs_events (v : Byte) : (busJobs v).map jobEvent = busEvents v := rfl

theorem addressByte_eq (a : Byte) : addressByte a = BitVec.ofNat 8 (min a.toNat 15) := by
  revert a; decide

theorem regJobs_events (a v : Byte) (o1 o2 o3 o4 : ControlOrder) :
    (regJobs a v o1 o2 o3 o4).map jobEvent = registerEvents (BitVec.ofNat 8 (min a.toNat 15)) v o1 o2 o3 o4 := by
  simp only [regJobs, registerEvents, List.map_append, modeJobs_events, busJobs_events, addressByte_eq]

theorem latchAll_modeJobs (m : BusMode) (o : ControlOrder) (l : Latches) : latchAll (modeJobs m o) l = modeLatches l m := by
  cases o <;> rfl

theorem latchAll_busJobs (v : Byte) (l : Latches) : latchAll (busJobs v) l = busLatches l v := rfl

theorem modeOf_modeLatches (l : Latches) (m : BusMode) : modeOf (modeLatches l m) = .known m :=
  modeOf_known _ m rfl rfl

theorem modeOf_busLatches (l : Latches) (v : Byte) : modeOf (busLatches l v) = modeOf l := rfl

theorem busOf_modeLatches (l : Latches) (m : BusMode) : busOf (modeLatches l m) = busOf l := rfl

theorem busOf_busLatches (l : Latches) (v : Byte) : busOf (busLatches l v) = .known v :=
  busOf_bits _ v rfl rfl rfl rfl rfl rfl rfl rfl

/-- The latches after a register write. -/
theorem latchAll_regJobs (a v : Byte) (o1 o2 o3 o4 : ControlOrder) (l : Latches) :
    latchAll (regJobs a v o1 o2 o3 o4) l = modeLatches (busLatches l v) .inactive := by
  simp only [regJobs, latchAll_append, latchAll_modeJobs, latchAll_busJobs]
  rfl

theorem beforeAll_modeJobs (m : BusMode) (o : ControlOrder) (b : UVal BusMode) (l : Latches) :
    beforeAll (modeJobs m o) b l = .known m := by
  cases o <;> exact modeOf_modeLatches l m

theorem beforeAll_busJobs (v : Byte) (b : UVal BusMode) (l : Latches) : beforeAll (busJobs v) b l = b := rfl

theorem observeAll_busJobs (g : Granularity) (v : Byte) (b : UVal BusMode) (l : Latches) (d : Dev) :
    observeAll g (busJobs v) b l d = d := rfl

/-- At phase grain a mode change is one observation (20_memory.md R42). -/
theorem observeAll_modeJobs_phase (m : BusMode) (o : ControlOrder) (b : UVal BusMode) (l : Latches) (d : Dev) :
    observeAll .phase (modeJobs m o) b l d = devEdge d b (busOf l) (.known m) := by
  cases o <;> exact congrArg (devEdge d b (busOf l)) (modeOf_known _ m rfl rfl)

/-- At pin grain a mode change is two observations (20_memory.md R42). -/
theorem observeAll_modeJobs_pin (m : BusMode) (o : ControlOrder) (b : UVal BusMode) (l : Latches) (d : Dev) :
    observeAll .pin (modeJobs m o) b l d =
      (let mid := match o with
        | .bdirFirst => modeOf { l with bdir := .known (levels m).1 }
        | .bc1First => modeOf { l with bc1 := .known (levels m).2 }
       devEdge (devEdge d (modeOf l) (busOf l) mid) mid (busOf l) (.known m)) := by
  cases o
  · exact congrArg (devEdge (devEdge d (modeOf l) (busOf l) (modeOf { l with bdir := .known (levels m).1 }))
      (modeOf { l with bdir := .known (levels m).1 }) (busOf l)) (modeOf_known _ m rfl rfl)
  · exact congrArg (devEdge (devEdge d (modeOf l) (busOf l) (modeOf { l with bc1 := .known (levels m).2 }))
      (modeOf { l with bc1 := .known (levels m).2 }) (busOf l)) (modeOf_known _ m rfl rfl)

end Sys2Proof.Machine
end

