-- ==== Sys2Proof/Laws/PerInstr.lean ====
section
/-! SUPPORT. Per-instruction families: what holds of the encoding of every command. -/

namespace Sys2Proof.Laws

/-- The word of a command matches the command's own row of spec/opcode_table.json (30_encoding.md R56). -/
def RowFits.Statement (i : Instr) : Prop := (opcodeRow i).accepts (encode i) = true

theorem RowFits.setmodeInactive : RowFits.Statement .setmodeInactive := rfl

theorem RowFits.setmodeRead : RowFits.Statement .setmodeRead := rfl

theorem RowFits.setmodeWrite : RowFits.Statement .setmodeWrite := rfl

theorem RowFits.setmodeAddress : RowFits.Statement .setmodeAddress := rfl

theorem RowFits.wrbus (v : Byte) : RowFits.Statement (.wrbus v) :=
  beq_iff_eq.2 ((ofFields_and 0x01 0x00 v 0xFF 0xFF 0x00).trans (by simp [ofFields]; rfl))

theorem RowFits.wrreg (a v : Byte) : RowFits.Statement (.wrreg a v) :=
  beq_iff_eq.2 ((ofFields_and 0x02 a v 0xFF 0x00 0x00).trans (by simp [ofFields]; rfl))

theorem RowFits.rdreg (a : Byte) : RowFits.Statement (.rdreg a) :=
  beq_iff_eq.2 ((ofFields_and 0x03 a 0x00 0xFF 0x00 0xFF).trans (by simp [ofFields]; rfl))

theorem RowFits.setrst (l : Level) : RowFits.Statement (.setrst l) := by cases l <;> rfl

end Sys2Proof.Laws
end

