-- ==== Sys2Proof/Tests/Slice0.lean ====
section
/-! SUPPORT. Tests on fixed values. The expected results are those of spec/95_test_vectors.md (V-..., E..., named at each test)
or worked out by hand from the rule named; then, for every statement with hypotheses, a witness that meets them. -/

namespace Sys2Proof.Tests

open Sys2Proof.Machine Sys2Proof.Safety

/-! ### Helpers -/

/-- A block with the conventions of the test vectors: a clock of 2,000,000 hertz, BDIR first, phase grain; `ok` good pin writes
ahead, then a failing one. -/
def block (reset : Bool) (l : Latches) (ok : Nat) : State :=
  { params := { clockHz := 2000000, hasResetLine := reset, ctlOrder := .bdirFirst, obsGranularity := .phase },
    latches := l, phase := .idle, fault := none, trace := [], dev := Dev.reset, commands := [],
    pinAnswers := List.replicate ok true ++ [false], pinDraws := 0, orderChoices := [], orderDraws := 0 }

/-- Latches with the control lines at a mode, the rest `U`. -/
def inMode (m : BusMode) : Latches := modeLatches Latches.reset m

/-- The state after a command; a marked state where there is none. -/
def after (i : Instr) (s : State) : State :=
  match exec i s with
  | .next t => t
  | .fault _ => { s with fault := some (.illegalCommand 0) }
  | .refused _ => { s with fault := some (.illegalCommand 0) }

/-- The event of a pin at a bit. -/
def ev (p : Pin) (b : Nat) : Event := ⟨p, if b = 1 then .H else .L⟩

/-- The device image of registers as cells. -/
def image (latch : BitVec 4) (regs : Memory) : Dev := { latch := .known latch, regs := regs, hazard := false }

/-! ### Decoding: words written out field by field (V-DE1 to V-DE11) -/

theorem test_decode_setmode :
    decode 0b00000000_00000000_00000000 = .ok .setmodeInactive ∧ decode 0b00000000_00000000_00000001 = .ok .setmodeRead
    ∧ decode 0b00000000_00000000_00000010 = .ok .setmodeWrite
    ∧ decode 0b00000000_00000000_00000011 = .ok .setmodeAddress := by decide

theorem test_decode_wrbus : decode 0b00000001_00000000_10100101 = .ok (.wrbus 0xA5) := by decide

theorem test_decode_wrreg : decode 0b00000010_11111111_01010101 = .ok (.wrreg 255 0x55) := by decide

theorem test_decode_rdreg : decode 0b00000011_00001111_00000000 = .ok (.rdreg 15) := by decide

theorem test_decode_setrst :
    decode 0b00000100_00000000_00000000 = .ok (.setrst .L) ∧ decode 0b00000100_00000000_00000001 = .ok (.setrst .H) := by
  decide

theorem test_encode_words :
    encode (.wrreg 7 0xFE) = 0x0207FE ∧ encode (.wrbus 0x1C) = 0x01001C ∧ encode (.rdreg 200) = 0x03C800
    ∧ encode (.setrst .H) = 0x040001 ∧ encode .setmodeAddress = 0x000003 := by decide

theorem test_decodeTableWord :
    decodeTableWord 24 0x020155 = some (.wrreg 1 0x55) ∧ decodeTableWord 24 0x050000 = none
    ∧ decodeTableWord 8 0x03 = some .setmodeAddress := by decide

/-! ### Ill-formed words, one for each check (V-DE2, 3, 5, 8, 10, 11) -/

theorem test_illformed_opcode : wordWellFormed 0x050000 = false ∧ decode 0x050000 = .error .reservedOpcode
    ∧ wordWellFormed 0xFFFFFF = false ∧ decode 0xFFFFFF = .error .reservedOpcode := by decide

theorem test_illformed_setmode_a : wordWellFormed 0x000103 = false ∧ decode 0x000103 = .error .addressFieldNotZero := by
  decide

theorem test_illformed_setmode_d : wordWellFormed 0x000004 = false ∧ decode 0x000004 = .error .dataFieldNotZero := by
  decide

theorem test_illformed_wrbus_a : wordWellFormed 0x010100 = false ∧ decode 0x010100 = .error .addressFieldNotZero := by
  decide

theorem test_illformed_rdreg_d : wordWellFormed 0x030001 = false ∧ decode 0x030001 = .error .dataFieldNotZero := by
  decide

theorem test_illformed_setrst_a : wordWellFormed 0x040100 = false ∧ decode 0x040100 = .error .addressFieldNotZero := by
  decide

theorem test_illformed_setrst_d : wordWellFormed 0x040002 = false ∧ decode 0x040002 = .error .dataFieldNotZero := by
  decide

/-! ### Commands -/

/-- V-SM1: the first command defines both control lines and shows the observer nothing. -/
theorem test_setmodeInactive :
    let t := after .setmodeInactive (block false Latches.reset 2)
    t.trace = [ev .bdir 0, ev .bc1 0] ∧ modeOf t.latches = .known .inactive ∧ busOf t.latches = .U ∧ t.dev = Dev.reset
    ∧ t.fault = none := by decide

/-- V-SM5. -/
theorem test_setmodeRead :
    let t := after .setmodeRead (block false (inMode .inactive) 2)
    t.trace = [] ∧ t.fault = some (.unsupported .readMode) ∧ t.latches = inMode .inactive := by decide

/-- V-SM3, and V-SM7: from reset `mode(S)` is `U` between the two events. -/
theorem test_setmodeWrite :
    (after .setmodeWrite (block false (inMode .inactive) 2)).trace = [ev .bdir 1, ev .bc1 0]
    ∧ modeOf (pinStep (start .setmodeWrite (block false Latches.reset 2))).latches = .U := by decide

/-- V-SM8: the second pin write fails. -/
theorem test_setmodeAddress :
    let t := after .setmodeAddress (block false (inMode .inactive) 1)
    t.trace = [ev .bdir 1] ∧ t.latches.bc1 = .U ∧ modeOf t.latches = .U ∧ t.fault = some (.pinFault .bc1) := by decide

/-- V-WB1. -/
theorem test_wrbus :
    let t := after (.wrbus 0x1C) (block false Latches.reset 8)
    t.trace = [ev .d0 0, ev .d1 0, ev .d2 1, ev .d3 1, ev .d4 1, ev .d5 0, ev .d6 0, ev .d7 0]
    ∧ busOf t.latches = .known 0x1C ∧ modeOf t.latches = .U := by decide

/-- V-WB5: the write to D2 fails over the old byte 0x0F. -/
theorem test_wrbus_cut :
    let t := after (.wrbus 0x1C) (block false (busLatches Latches.reset 0x0F) 2)
    t.trace = [ev .d0 0, ev .d1 0] ∧ t.fault = some (.pinFault .d2)
    ∧ [t.latches.d7, t.latches.d6, t.latches.d5, t.latches.d4, t.latches.d3, t.latches.d2, t.latches.d1, t.latches.d0]
      = [.known .L, .known .L, .known .L, .known .L, .known .H, .U, .known .L, .known .L] := by decide

/-- V-WR1. -/
theorem test_wrreg :
    let t := after (.wrreg 7 0xFE) (block false (inMode .inactive) 24)
    t.trace =
      [ev .bdir 1, ev .bc1 1,
       ev .d0 1, ev .d1 1, ev .d2 1, ev .d3 0, ev .d4 0, ev .d5 0, ev .d6 0, ev .d7 0,
       ev .bdir 0, ev .bc1 0, ev .bdir 1, ev .bc1 0,
       ev .d0 0, ev .d1 1, ev .d2 1, ev .d3 1, ev .d4 1, ev .d5 1, ev .d6 1, ev .d7 1,
       ev .bdir 0, ev .bc1 0]
    ∧ modeOf t.latches = .known .inactive ∧ busOf t.latches = .known 0xFE ∧ t.dev = image 7 [(7, 0xFE)]
    ∧ t.fault = none ∧ t.phase = .idle := by decide

/-- V-WR8: pin write 16 fails; the control lines stay in WRITE and nothing is stored. -/
theorem test_wrreg_cut :
    let t := after (.wrreg 0 0x1C) (block false (busLatches (inMode .inactive) 0x0F) 16)
    t.trace.length = 16 ∧ t.latches.d2 = .U ∧ t.latches.d1 = .known .L ∧ t.latches.d3 = .known .L
    ∧ modeOf t.latches = .known .write ∧ t.dev = image 0 [] ∧ t.fault = some (.pinFault .d2) := by decide

/-- V-RD1, V-RD2. -/
theorem test_rdreg :
    (after (.rdreg 3) (block false Latches.reset 0)).fault = some (.unsupported .registerRead)
    ∧ (after (.rdreg 200) (block false Latches.reset 0)).trace = [] := by decide

/-- V-RS1. -/
theorem test_setrst_no_line :
    let t := after (.setrst .L) (block false Latches.reset 1)
    t.trace = [] ∧ t.fault = some (.unsupported .noResetLine) := by decide

/-- V-RS2, V-RS3. -/
theorem test_setrst :
    let s := { block true (inMode .inactive) 2 with dev := image 3 [(3, 9)] }
    (after (.setrst .L) s).latches = { inMode .inactive with rst := .known .L }
    ∧ (after (.setrst .L) s).dev = Dev.reset ∧ (after (.setrst .H) s).dev = image 3 [(3, 9)] := by decide

/-- V-DE11, V-DE12: an illegal word, and any word in a faulted block. -/
theorem test_illegal_word :
    (match step { block false Latches.reset 0 with commands := [.word 0x050000] } with
     | .next t => t.fault | .fault _ => none | .refused _ => none) = some (.illegalCommand 0x050000)
    ∧ (match step { block false Latches.reset 0 with fault := some (.pinFault .d0), commands := [.word 0x000000] } with
       | .next _ => none | .fault r => some r | .refused _ => none) = some Fault.blockFaulted := by decide

/-- P3, the forbidden shortcut's third variant of 20_memory.md R41: an address byte with upper bits makes the image `U`. -/
theorem test_high_address_bits :
    latchOfBus (.known 0x13) = .U ∧ latchOfBus (.known 0x03) = .known 3
    ∧ commitData { latch := .U, regs := [(0, 1)], hazard := false } (.known 9) = Dev.reset := by decide

/-- 20_memory.md R41 clause 5: a byte that is `U` takes the cell out, which keeps the form canonical. -/
theorem test_memory_canonical :
    memWrite (memWrite (memWrite [] 9 (.known 1)) 3 (.known 0)) 9 .U = [(3, 0)]
    ∧ memRead [(3, 0)] 3 = .known 0 ∧ memRead [(3, 0)] 9 = .U
    ∧ Memory.wf [(3, 0), (9, 1)] = true ∧ Memory.wf [(9, 1), (3, 0)] = false ∧ Memory.wf [(16, 0)] = false := by decide

/-! ### The facade -/

/-- V-TN4, V-VO4, V-NO3, V-MX3. -/
theorem test_plain_pseudo :
    expand 2000000 (.tone .C 0x1234) = .ok [⟨4, 0x34⟩, ⟨5, 0x12⟩] ∧ expand 2000000 (.volume .A 0x1F) = .ok [⟨8, 0x1F⟩]
    ∧ expand 2000000 (.volume .A 0x2F) = .ok [⟨8, 0x0F⟩] ∧ expand 2000000 (.setNoise 0x20) = .ok [⟨6, 0x00⟩]
    ∧ expand 2000000 (.setMixer 0xFF) = .ok [⟨7, 0xFF⟩] := by decide

/-- V-TH1, 4, 5, 7, 8. -/
theorem test_toneHz :
    expand 2000000 (.toneHz .A 440) = .ok [⟨0, 0x1C⟩, ⟨1, 0x01⟩]
    ∧ expand 2000000 (.toneHz .A 30) = .error (.contractViolation .periodOverflow)
    ∧ expand 2000000 (.toneHz .A 0) = .error (.contractViolation .zeroFrequency)
    ∧ expand 2000000 (.toneHz .A 125000) = .ok [⟨0, 0x01⟩, ⟨1, 0x00⟩]
    ∧ expand 2000000 (.toneHz .A 125001) = .ok [⟨0, 0x00⟩, ⟨1, 0x00⟩] := by decide

/-- V-EF1 to V-EF8, V-EF10, V-EF13. -/
theorem test_envelope_divider :
    [EnvFreq.hertz 120, .beatsPerMinute 120, .hertz 1, .beatsPerMinute 1, .hertz 0, .beatsPerMinute 0, .hertz 7812,
      .hertz 7813, .integer 0].map (asEp 2000000) = [65, 3900, 7812, 1, 1, 60, 1, 1, 0]
    ∧ asEp 20000000000 (.hertz 1) = 1 := by decide

/-- V-EF2, V-ES3, V-ES5, V-ES7. -/
theorem test_envelope :
    expand 2000000 (.setEnvFreq (.beatsPerMinute 120)) = .ok [⟨11, 0x3C⟩, ⟨12, 0x0F⟩]
    ∧ expand 2000000 (.setEnvShape (.invertedBuiltin .saw)) = .ok [⟨13, 0x08⟩]
    ∧ expand 2000000 (.setEnvShape (.invertedBuiltin .triangle)) = .ok [⟨13, 0x0A⟩]
    ∧ expand 2000000 (.setEnvShape .rawEnvelope) = .error (.unsupported .rawEnvelope) := by decide

/-- V-NT1 to V-NT6. -/
theorem test_notes :
    [(⟨.A, 4, .noAccidental, 0⟩ : Note), ⟨.C, 4, .noAccidental, 0⟩, ⟨.D, 4, .noAccidental, 0⟩, ⟨.B, 4, .noAccidental, 0⟩,
      ⟨.C, 5, .noAccidental, 0⟩, ⟨.C, 4, .plus1, 0⟩, ⟨.B, 3, .minus1, 0⟩].map noteHz
      = [440, 262, 294, 494, 523, 277, 233] := by decide

/-- V-NT7: half a semitone. -/
theorem test_note_half : noteHz ⟨.A, 4, .noAccidental, ⟨1, 2, by decide, by decide⟩⟩ = 453 := by decide

/-- V-NT9 to V-NT11: the tie goes away from zero, and the octave is clamped. -/
theorem test_note_edges :
    noteHz ⟨.A, 0, .noAccidental, 0⟩ = 28 ∧ noteHz ⟨.A, -3, .noAccidental, 0⟩ = 28
    ∧ noteHz ⟨.A, 20, .noAccidental, 0⟩ = 450560
    ∧ expand 2000000 (.playNote .A ⟨.A, 0, .noAccidental, 0⟩) = .error (.contractViolation .periodOverflow) := by decide

/-- V-NT1: `isNoteHz` has an instance (EveryRealNoteIsPlayed), at transposition 0 over the reals. -/
theorem test_witness_everyRealNoteIsPlayed : isNoteHz ⟨.A, 4, .noAccidental, 0⟩ 440 := by
  norm_num [isNoteHz, noteSemitones, letterOffset, accidentalOffset, clampOctave]

/-- The column of codes of 60_exceptions.md R110. -/
theorem test_fault_codes :
    [BlockFault.unsupported .readMode, .pinFault .d0, .illegalCommand 0x050000, .contractViolation .zeroFrequency].map faultCode
      = [1, 2, 3, 4] := by decide

/-- 20_memory.md R31, 42_facade_macros.md R92: the register map and the pitch of a period, as the document prints them. -/
theorem test_register_map :
    [Channel.A, .B, .C].map toneFineReg = [0, 2, 4] ∧ [Channel.A, .B, .C].map toneRoughReg = [1, 3, 5]
    ∧ [Channel.A, .B, .C].map levelReg = [8, 9, 10] ∧ mixerToneEnabled 0xFE .A = true ∧ mixerToneEnabled 0xFE .B = false
    ∧ meaningfulBits 1 = 0x0F ∧ meaningfulBits 9 = 0x1F ∧ tonePeriodOf 0x1C 0x01 = 284 := by decide

/-! ### The textual form (30_encoding.md R59; the lines are those of 95_test_vectors.md) -/

theorem test_text_command :
    readLine "SETMODE INACTIVE        ; 0x000000".toList = some (.command .setmodeInactive)
    ∧ readLine "WRREG 0xFF, 0xAA".toList = some (.command (.wrreg 255 0xAA))
    ∧ readLine "WRREG 256, 0".toList = none := by decide

theorem test_text_pseudo :
    readLine "SETMIXER 0b11111110".toList = some (.pseudo (.setMixer 0xFE))
    ∧ readLine "SETENVFREQ BPM 120".toList = some (.pseudo (.setEnvFreq (.beatsPerMinute 120)))
    ∧ readLine "TONEHZ A, 440".toList = some (.pseudo (.toneHz .A 440)) := by decide

theorem test_text_note :
    readLine "PLAYNOTE A, A, 4, NONE, 0".toList = some (.pseudo (.playNote .A ⟨.A, 4, .noAccidental, 0⟩)) := by decide

/-! ### Witnesses: a concrete state and operands that meet all hypotheses of a statement of Certificates/Slice0/Obligations.lean
together, one for each of its clauses -/

theorem ready_block (reset : Bool) (l : Latches) (ok : Nat) : Ready (block reset l ok) := ⟨rfl, rfl⟩

/-- A block with one command presented. -/
def given (c : HostCommand) (ok : Nat) : State := { block true (inMode .inactive) ok with commands := [c] }

/-- A block that has entered ADDRESS by commands of its own, with the two events in its trace, and has a command presented. -/
def addressed (c : HostCommand) (ok : Nat) : State :=
  { given c ok with latches := inMode .address, trace := [ev .bdir 1, ev .bc1 1] }

/-- The block in the middle of a register write: its first pin write is done. -/
def running (ok : Nat) : State := pinStep (start (.wrreg 5 1) (block true Latches.reset (ok + 1)))

theorem test_witness_encodeInvertsDecode :
    decode 0x000000 = .ok .setmodeInactive ∧ decode 0x040001 = .ok (.setrst .H) ∧ decode 0x02FFFF = .ok (.wrreg 0xFF 0xFF) := by
  decide

theorem test_witness_decoderFollowsOpcodeTable :
    decode 0x03FF00 = .ok (.rdreg 0xFF) ∧ opcodeRow (.rdreg 0) ∈ opcodeRows ∧ opcodeRow (.setrst .L) ∈ opcodeRows := by decide

theorem test_witness_illegalWordRaisesIllegalCommand :
    (Ready (given (.word 0x050000) 0) ∧ (given (.word 0x050000) 0).commands = .word 0x050000 :: []
      ∧ wordWellFormed 0x050000 = false)
    ∧ exec .setmodeRead (block true Latches.reset 0) = .next (after .setmodeRead (block true Latches.reset 0)) :=
  ⟨⟨⟨rfl, rfl⟩, rfl, by decide⟩, rfl⟩

theorem test_witness_stepRunsDecodedCommand :
    Ready (given (.word 0x030F00) 0) ∧ (given (.word 0x030F00) 0).commands = .word 0x030F00 :: []
    ∧ decode 0x030F00 = .ok (.rdreg 15) := ⟨⟨rfl, rfl⟩, rfl, by decide⟩

theorem test_witness_faultedBlockIsStuck :
    (after .setmodeRead (block true Latches.reset 0)).fault = some (.unsupported .readMode) := rfl

theorem test_witness_commandsAreTakenInIdleOnly :
    ((running 1).fault = none ∧ (running 1).phase ≠ .idle)
    ∧ ((block true Latches.reset 0).fault = none ∧ (block true Latches.reset 0).phase = .idle
      ∧ (block true Latches.reset 0).commands = []) := by decide

/-- One fault of each code, each raised in the way of its row. -/
theorem test_witness_faultsAreRaisedAsTheTableSays :
    let s := block false Latches.reset 1
    (exec (.setrst .H) s = .next (after (.setrst .H) s)
      ∧ (after (.setrst .H) s).fault = some (.unsupported .noResetLine))
    ∧ (exec (.wrbus 0) s = .next (after (.wrbus 0) s) ∧ (after (.wrbus 0) s).fault = some (.pinFault .d1)
      ∧ (start (.wrbus 0) s).phase = .run 0 (busJobs 0) .U ∧ (busJobs 0)[1]? = some (plainJob .d1 .L)
      ∧ (after (.wrbus 0) s).trace = [ev .d0 0])
    ∧ ((given (.word 0x050000) 0).phase = .idle ∧ ∃ t, step (given (.word 0x050000) 0) = .next t
      ∧ t.fault = some (.illegalCommand 0x050000))
    ∧ expand 2000000 (.toneHz .A 30) = .error (.contractViolation .periodOverflow) :=
  ⟨⟨rfl, by decide⟩, ⟨rfl, by decide, by decide, by decide, by decide⟩, ⟨rfl, _, rfl, rfl⟩, by decide⟩

theorem test_witness_stepKeepsInv :
    (Inv (given (.word 0x000000) 2) ∧ ∃ t, step (given (.word 0x000000) 2) = .next t)
    ∧ (Inv (given (.word 0x050000) 0) ∧ ∃ t, step (given (.word 0x050000) 0) = .next t)
    ∧ (Inv (given (.pseudo (.setMixer 0)) 0) ∧ ∃ t, step (given (.pseudo (.setMixer 0)) 0) = .next t)
    ∧ (Inv (running 0) ∧ ∃ t, step (running 0) = .next t) :=
  ⟨⟨⟨rfl, by decide, by decide, trivial, by decide⟩, _, rfl⟩, ⟨⟨rfl, by decide, by decide, trivial, by decide⟩, _, rfl⟩,
    ⟨⟨rfl, by decide, by decide, trivial, by decide⟩, _, rfl⟩,
    ⟨⟨rfl, by decide, by decide, ⟨by decide, by decide, by decide⟩, by decide⟩, _, rfl⟩⟩

theorem test_witness_stepKeepsTraceLatchAgreement :
    (TraceExplainsLatches (addressed (.word 0x000000) 2) ∧ ∃ t, step (addressed (.word 0x000000) 2) = .next t)
    ∧ (TraceExplainsLatches (running 0) ∧ ∃ t, step (running 0) = .next t) := by
  refine ⟨⟨fun p => ?_, _, rfl⟩, fun p => ?_, _, rfl⟩ <;> cases p <;> first | exact rfl | exact .inl rfl

theorem test_witness_stepOnlyAppendsToTrace :
    (after .setmodeWrite (block true (inMode .address) 2)).dev.hazard = true
    ∧ ∃ t, step { after .setmodeWrite (block true (inMode .address) 2) with commands := [.word 0x000000] } = .next t :=
  ⟨by decide, _, rfl⟩

theorem test_witness_stepIsAcceptanceThenPinWrites :
    (Ready (given (.word 0x02FF55) 3) ∧ (given (.word 0x02FF55) 3).commands = .word 0x02FF55 :: [])
    ∧ (Ready (given (.pseudo (.tone .A 1)) 0) ∧ (given (.pseudo (.tone .A 1)) 0).commands = .pseudo (.tone .A 1) :: []) :=
  ⟨⟨⟨rfl, rfl⟩, rfl⟩, ⟨rfl, rfl⟩, rfl⟩

theorem test_witness_acceptedCommandEndsAfterItsCount :
    (Ready (block true Latches.reset 24) ∧ (start (.wrreg 200 7) (block true Latches.reset 24)).fault = none
      ∧ PinsInfallible (block true Latches.reset 24) (pinWrites (.wrreg 200 7)))
    ∧ (start (.setrst .L) (block true Latches.reset 24)).fault = none := by
  unfold PinsInfallible
  exact ⟨⟨ready_block _ _ _, by decide, by decide⟩, by decide⟩

theorem test_witness_pinFailureCutsCommand :
    let s := block true Latches.reset 0
    let t := block true Latches.reset 7
    (Ready s ∧ (start (.setrst .L) s).phase = .run 0 ([] ++ plainJob .rst .L :: []) .U ∧ pinAnswer s 0 = false)
    ∧ (Ready t ∧ (start (.wrbus 0xFF) t).phase = .run 0 ((busJobs 0xFF).take 7 ++ plainJob .d7 .H :: []) .U
      ∧ (∀ k < 7, pinAnswer t k = true) ∧ pinAnswer t 7 = false) :=
  ⟨⟨⟨rfl, rfl⟩, by decide, by decide⟩, ⟨rfl, rfl⟩, by decide, by decide, by decide⟩

theorem test_witness_execAnswersNext :
    exec (.wrreg 5 1) (block true Latches.reset 3) = .next (after (.wrreg 5 1) (block true Latches.reset 3)) := rfl

theorem test_witness_setModeWritesBothControlLines :
    let s := fun ok => block false (inMode .address) ok
    (BusMode.inactive ≠ .read ∧ modeEvents .inactive (controlOrder (s 2) 0) = [ev .bdir 0, ev .bc1 0])
    ∧ (Ready (s 2) ∧ PinsInfallible (s 2) 2) ∧ (Ready (s 0) ∧ pinAnswer (s 0) 0 = false)
    ∧ (Ready (s 1) ∧ pinAnswer (s 1) 0 = true ∧ pinAnswer (s 1) 1 = false) := by
  unfold PinsInfallible
  exact ⟨by decide, ⟨⟨rfl, rfl⟩, by decide⟩, ⟨⟨rfl, rfl⟩, by decide⟩, ⟨rfl, rfl⟩, by decide, by decide⟩

theorem test_witness_controlOrder :
    ∃ s t u : State, s.params.ctlOrder = .bdirFirst ∧ t.params.ctlOrder = .bc1First ∧ u.params.ctlOrder = .any :=
  ⟨block true Latches.reset 0, { block true Latches.reset 0 with params := ⟨1, true, .bc1First, .phase⟩ },
    { block true Latches.reset 0 with params := ⟨1, true, .any, .phase⟩ }, rfl, rfl, rfl⟩

theorem test_witness_setModeEndsInItsMode :
    BusMode.address ≠ .read ∧ Ready (block false Latches.reset 4) ∧ PinsInfallible (block false Latches.reset 4) 4 := by
  unfold PinsInfallible
  exact ⟨by decide, ⟨rfl, rfl⟩, by decide⟩

theorem test_witness_ready : Ready (block false Latches.reset 0) ∧ Ready State.reset := ⟨⟨rfl, rfl⟩, rfl, rfl⟩

theorem test_witness_writeBusDrivesEveryDataLine :
    let s := fun ok => block false Latches.reset ok
    (Ready (s 8) ∧ PinsInfallible (s 8) 8)
    ∧ (Ready (s 0) ∧ (∀ j < 0, pinAnswer (s 0) j = true) ∧ pinAnswer (s 0) 0 = false)
    ∧ (Ready (s 7) ∧ (∀ j < 7, pinAnswer (s 7) j = true) ∧ pinAnswer (s 7) 7 = false) := by
  unfold PinsInfallible
  exact ⟨⟨⟨rfl, rfl⟩, by decide⟩, ⟨⟨rfl, rfl⟩, by decide, by decide⟩, ⟨rfl, rfl⟩, by decide, by decide⟩

/-- V-WB3 with its first and last intermediate bytes. -/
theorem test_witness_busPassesThroughMixedBytes :
    let s := block false (busLatches Latches.reset 0x00) 8
    Ready s ∧ PinsInfallible s 8 ∧ busOf s.latches = .known 0x00
    ∧ busOf (pinSteps 1 (start (.wrbus 0xFF) s)).latches = .known 0x01
    ∧ busOf (pinSteps 7 (start (.wrbus 0xFF) s)).latches = .known 0x7F := by
  unfold PinsInfallible
  exact ⟨⟨rfl, rfl⟩, by decide, by decide, by decide, by decide⟩

theorem test_witness_setResetWritesResetLine :
    (Ready (block false Latches.reset 0) ∧ (block false Latches.reset 0).params.hasResetLine = false)
    ∧ (Ready (block true Latches.reset 1) ∧ (block true Latches.reset 1).params.hasResetLine = true
      ∧ PinsInfallible (block true Latches.reset 1) 1)
    ∧ (Ready (block true Latches.reset 0) ∧ (block true Latches.reset 0).params.hasResetLine = true
      ∧ pinAnswer (block true Latches.reset 0) 0 = false) := by
  unfold PinsInfallible
  exact ⟨⟨⟨rfl, rfl⟩, rfl⟩, ⟨⟨rfl, rfl⟩, rfl, by decide⟩, ⟨rfl, rfl⟩, rfl, by decide⟩

theorem test_witness_deviceResetLeavesBlockAlone :
    Ready (block true Latches.reset 2) ∧ (block true Latches.reset 2).params.hasResetLine = true
    ∧ PinsInfallible (block true Latches.reset 2) 2 := by
  unfold PinsInfallible
  exact ⟨⟨rfl, rfl⟩, rfl, by decide⟩

/-- The hypotheses of the statements about a register write whose pin writes succeed, from INACTIVE at phase grain, at pin
grain, and from WRITE. -/
theorem test_witness_writeRegister :
    let s := block true (inMode .inactive) 24
    let p := { s with params := ⟨2000000, true, .bdirFirst, .pin⟩ }
    let w := block true (inMode .write) 24
    (Ready s ∧ Initialised s ∧ NoHazard s ∧ s.params.obsGranularity = .phase ∧ PinsInfallible s 24)
    ∧ (Ready p ∧ p.params.obsGranularity = .pin ∧ PinsInfallible p 24)
    ∧ (Ready w ∧ modeOf w.latches = .known .write ∧ PinsInfallible w 24) := by
  unfold PinsInfallible Initialised
  exact ⟨⟨⟨rfl, rfl⟩, by decide, rfl, rfl, by decide⟩, ⟨⟨rfl, rfl⟩, rfl, by decide⟩, ⟨rfl, rfl⟩, by decide, by decide⟩

/-- A cut at each edge of the two ranges, and at the first and last pin write. -/
theorem test_witness_cutRegisterWriteStaysInItsMode :
    ∀ k ∈ [0, 2, 9, 14, 21, 23],
      let s := block true Latches.reset k
      Ready s ∧ (registerEvents 5 1 (controlOrder s 0) (controlOrder s 1) (controlOrder s 2) (controlOrder s 3))[k]?.isSome
      ∧ (∀ j < k, pinAnswer s j = true) ∧ pinAnswer s k = false := by
  unfold Ready NoFault Idle
  decide

/-- E1: both ends of the range above 15, and the address 16 that truncation would send to 0. -/
theorem test_witness_outOfRangeAddressIsClamped :
    15 < (16 : Byte).toNat ∧ 15 < (255 : Byte).toNat ∧ clampAddr 16 = 15 ∧ clampAddr 0x13 = 15 ∧ clampAddr 255 = 15 := by
  decide

/-- A state for each row of the table of transients. -/
def transientState (old : BusMode) (o : ControlOrder) : State :=
  { block true (inMode old) 1 with
    params := ⟨2000000, true, match o with | .bdirFirst => .bdirFirst | .bc1First => .bc1First, .phase⟩ }

theorem test_witness_controlLineTransients :
    ∀ old ∈ [BusMode.inactive, .write, .address], ∀ o ∈ [ControlOrder.bdirFirst, .bc1First],
      Ready (transientState old o) ∧ pinAnswer (transientState old o) 0 = true
      ∧ modeOf (transientState old o).latches = .known old ∧ controlOrder (transientState old o) 0 = o := by
  unfold Ready NoFault Idle
  decide

theorem test_witness_modeChangeIsObservedOnce :
    let s := block true (inMode .write) 2
    BusMode.inactive ≠ .read ∧ Ready s ∧ s.params.obsGranularity = .phase ∧ PinsInfallible s 2
    ∧ NoHazard (after .setmodeInactive s) := by
  unfold PinsInfallible NoHazard
  exact ⟨by decide, ⟨rfl, rfl⟩, rfl, by decide, by decide⟩

/-- Leaving ADDRESS at the two sides of the address limit, and leaving WRITE with and without a latched address. -/
theorem test_witness_observerFollowsItsClauses :
    let d := image 3 [(3, 1), (9, 2)]
    Memory.wf d.regs = true ∧ BusMode.address ≠ .inactive ∧ BusMode.write ≠ .inactive
    ∧ (0x0F : Byte).toNat < 16 ∧ (devEdge d (.known .address) (.known 0x0F) (.known .inactive)).latch = .known 15
    ∧ 16 ≤ (0x10 : Byte).toNat ∧ (devEdge d (.known .address) (.known 0x10) (.known .inactive)).latch = .U
    ∧ (devEdge d (.known .write) (.known 7) (.known .inactive)).regs = [(3, 7), (9, 2)]
    ∧ (devEdge { d with latch := .U } (.known .write) (.known 7) (.known .inactive)).regs = []
    ∧ (devEdge d (.known .write) (.known 7) (.known .address)).hazard = true := by decide

/-- The control lines at READ, which no command put there, and a bus write that leaves them. -/
theorem test_witness_completedCommandLeavesReadOnlyIfFoundThere :
    let s := block true (inMode .read) 8
    exec (.wrbus 1) s = .next (after (.wrbus 1) s) ∧ (after (.wrbus 1) s).fault = none
    ∧ modeOf (after (.wrbus 1) s).latches = .known .read := ⟨rfl, by decide, by decide⟩

theorem test_witness_controlOrderDoesNotChangeTheEnd :
    let s := { block true (inMode .inactive) 24 with
      params := ⟨2000000, true, .any, .phase⟩, orderChoices := [.bdirFirst, .bc1First, .bc1First, .bdirFirst] }
    Ready s ∧ s.params.obsGranularity = .phase ∧ PinsInfallible s (pinWrites (.wrreg 1 2))
    ∧ NoHazard (after (.wrreg 1 2) s) := by
  unfold PinsInfallible NoHazard
  exact ⟨⟨rfl, rfl⟩, rfl, by decide, by decide⟩

/-- With no hazard at the end: `SETMODE` leaving WRITE, which stores at the latched address, at phase grain and at pin grain;
`SETMODE` from INACTIVE, which stores and latches nothing; `WRREG`; and a command without a mode change. -/
theorem test_witness_deviceImageFrame :
    let d := image 3 [(4, 1)]
    let s := { block true (busLatches (inMode .write) 9) 2 with dev := d }
    let p := { s with params := ⟨2000000, true, .bc1First, .pin⟩ }
    let r := { block true (inMode .inactive) 24 with dev := d }
    (exec .setmodeInactive s = .next (after .setmodeInactive s) ∧ NoHazard (after .setmodeInactive s)
      ∧ s.dev.latch = .known 3 ∧ (after .setmodeInactive s).dev = image 3 [(3, 9), (4, 1)])
    ∧ (exec .setmodeInactive p = .next (after .setmodeInactive p) ∧ NoHazard (after .setmodeInactive p)
      ∧ (after .setmodeInactive p).dev = image 3 [(3, 9), (4, 1)])
    ∧ (exec .setmodeAddress r = .next (after .setmodeAddress r) ∧ NoHazard (after .setmodeAddress r)
      ∧ r.params.obsGranularity = .phase ∧ modeOf r.latches ≠ .known .write ∧ modeOf r.latches ≠ .known .address)
    ∧ (exec (.wrreg 200 7) r = .next (after (.wrreg 200 7) r) ∧ NoHazard (after (.wrreg 200 7) r)
      ∧ (after (.wrreg 200 7) r).dev = image 15 [(4, 1), (15, 7)])
    ∧ (exec (.setrst .L) r = .next (after (.setrst .L) r) ∧ NoHazard (after (.setrst .L) r)) := by
  unfold NoHazard
  exact ⟨⟨rfl, by decide, by decide, by decide⟩, ⟨rfl, by decide, by decide⟩, ⟨rfl, by decide, by decide, by decide, by decide⟩,
    ⟨rfl, by decide, by decide⟩, rfl, by decide⟩

/-- V-TH3 to V-TH5: the clauses of `TONEHZ` at the edges of their ranges. -/
theorem test_witness_toneHzDividesTheClock :
    (0 : Nat) < 30 ∧ 4095 < 2000000 / (16 * 30) ∧ (0 : Nat) < 31 ∧ 2000000 / (16 * 31) ≤ 4095 := by decide

theorem test_witness_expansionIsAllOrNothing :
    let bad := given (.pseudo (.toneHz .A 0)) 0
    let good := given (.pseudo (.setMixer 0xFE)) 0
    (Ready bad ∧ bad.commands = .pseudo (.toneHz .A 0) :: []
      ∧ expand bad.params.clockHz (.toneHz .A 0) = .error (.contractViolation .zeroFrequency))
    ∧ (Ready good ∧ good.commands = .pseudo (.setMixer 0xFE) :: []
      ∧ expand good.params.clockHz (.setMixer 0xFE) = .ok [⟨7, 0xFE⟩]) :=
  ⟨⟨⟨rfl, rfl⟩, rfl, by decide⟩, ⟨rfl, rfl⟩, rfl, by decide⟩

theorem test_witness_pseudoCommandReachesTheDevice :
    let s := given (.pseudo (.tone .A 0x100)) 48
    Ready s ∧ Initialised s ∧ NoHazard s ∧ s.params.obsGranularity = .phase ∧ s.commands = .pseudo (.tone .A 0x100) :: []
    ∧ expand s.params.clockHz (.tone .A 0x100) = .ok [⟨0, 0x00⟩, ⟨1, 0x01⟩] ∧ PinsInfallible s (24 * 2) := by
  unfold PinsInfallible Initialised
  exact ⟨⟨rfl, rfl⟩, by decide, rfl, rfl, rfl, by decide, by decide⟩

end Sys2Proof.Tests
end

/-! The statements of 00_scope.md: what every step keeps, and where a completed command leaves the control lines. -/

namespace Sys2Proof.Safety

open Sys2Proof.Machine

/-! ### The machine invariant -/

/-- Where a faulted block is idle, a running one holds no fault record. -/
theorem fault_eq_none_of_run {s : State} {k : Nat} {todo : List PinJob} {b : UVal BusMode}
    (h : s.fault ≠ none → s.phase = .idle) (hp : s.phase = .run k todo b) : s.fault = none := by
  by_contra hf
  simp [h hf] at hp

/-- What the invariant says of a block with a next pin write: the rest of the list is within 24, and the pin is not a reset line
that is not there. -/
theorem Inv.of_run {s : State} {k : Nat} {j : PinJob} {rest : List PinJob} {b : UVal BusMode} (h : Inv s)
    (hp : s.phase = .run k (j :: rest) b) :
    k + 1 + rest.length ≤ 24
      ∧ (s.params.hasResetLine = false → j.pin ≠ .rst ∧ ∀ i ∈ rest, i.pin ≠ .rst) := by
  obtain ⟨-, -, -, hlegal, -⟩ := h
  rw [PhaseLegal, hp] at hlegal
  obtain ⟨-, hlen, hrst⟩ := hlegal
  exact ⟨by rw [List.length_cons] at hlen; omega, fun hl => by simpa using hrst hl⟩

theorem setLatch_rst_other (l : Latches) (p : Pin) (x : Latch) (h : p ≠ .rst) : (setLatch l p x).rst = l.rst :=
  getLatch_setLatch_other l p .rst x h.symm

/-- A block made idle, whatever record it takes, has the invariant when its image, parameters, reset latch and trace are those of
one that has it. -/
theorem Inv.of_idle {s t : State} (h : Inv s) (hphase : t.phase = .idle) (hdev : t.dev = s.dev) (hpar : t.params = s.params)
    (hrst : s.params.hasResetLine = false → t.latches.rst = s.latches.rst) (htrace : t.trace = s.trace) : Inv t := by
  obtain ⟨hwf, hclock, -, -, hline⟩ := h
  refine ⟨hdev ▸ hwf, hpar ▸ hclock, fun _ => hphase, by rw [PhaseLegal, hphase]; trivial, fun hl => ?_⟩
  rw [hpar] at hl
  rw [hrst hl, htrace]
  exact hline hl

theorem inv_commitPin (s : State) (k : Nat) (j : PinJob) (rest : List PinJob) (b : UVal BusMode)
    (hp : s.phase = .run k (j :: rest) b) (h : Inv s) : Inv (commitPin j k rest b (drawPin s)) := by
  obtain ⟨hlen, hpins⟩ := h.of_run hp
  obtain ⟨hwf, hclock, hidle, -, hline⟩ := h
  refine ⟨wf_observe _ _ _ _ _ _ hwf, hclock, fun hf => absurd (fault_eq_none_of_run hidle hp) hf, ?_,
    fun hl => ⟨?_, fun e he => ?_⟩⟩
  · cases rest with
    | nil => trivial
    | cons j' rest' => exact ⟨List.cons_ne_nil _ _, hlen, fun hl => (hpins hl).2⟩
  · rw [commitPin_latches, setLatch_rst_other _ _ _ (hpins hl).1]
    exact (hline hl).1
  · obtain he | rfl : e ∈ s.trace ∨ e = jobEvent j := by simpa using he
    · exact (hline hl).2 e he
    · exact (hpins hl).1

theorem inv_pinStep (s : State) (h : Inv s) : Inv (pinStep s) :=
  pinStep_keeps Inv (fun _ h => h.of_idle rfl rfl rfl (fun _ => rfl) rfl) inv_commitPin
    (fun _ _ _ _ _ hp h =>
      h.of_idle rfl rfl rfl (fun hl => setLatch_rst_other _ _ _ ((h.of_run hp).2 hl).1) rfl) s h

/-- The accepting step of a command keeps the invariant in a block that takes commands. -/
theorem inv_start (i : Instr) (s : State) (hf : s.fault = none) (h : Inv s) : Inv (start i s) := by
  obtain ⟨c, hs⟩ | ⟨jobs, n, hs, hne, hlen, hle, hpins⟩ := start_cases i s
  · rw [hs]
    exact h.of_idle rfl rfl rfl (fun _ => rfl) rfl
  · obtain ⟨hwf, hclock, -, -, hline⟩ := h
    rw [hs]
    refine ⟨by simpa using hwf, by simpa using hclock, by simp [hf], ?_, by simpa using hline⟩
    exact ⟨hne, by omega, by simpa using hpins⟩

/-- Settles O14, by the cases of a step and, for a running command, of its next pin write. -/
theorem stepKeepsInv : Obligations.StepKeepsInv := by
  intro s t h hstep
  obtain ⟨hf, ⟨-, rfl⟩ | ⟨-, i, rest, rfl⟩ | ⟨-, f, rest, rfl⟩ | ⟨-, cs, rfl⟩⟩ := step_cases s t hstep
  · exact inv_pinStep s h
  · exact complete_keeps Inv inv_pinStep _ (inv_start i { s with commands := rest } hf h)
  · exact h.of_idle rfl rfl rfl (fun _ => rfl) rfl
  · exact h

/-! ### The agreement of trace and latches -/

/-- The last level of a pin after one more event. -/
theorem lastLevel_append_singleton (p : Pin) (es : List Event) (e : Event) :
    lastLevel p (es ++ [e]) = if e.pin = p then some e.level else lastLevel p es := by
  induction es with
  | nil => rfl
  | cons d es ih =>
    rw [List.cons_append, lastLevel, ih, lastLevel]
    by_cases he : e.pin = p <;> simp [he]

/-- The agreement with what makes it inductive over pin writes: a block with a fault record writes no more, so no later record
takes the place of the one that explains a `U`. -/
def AgreesUntilFault (s : State) : Prop := TraceExplainsLatches s ∧ (s.fault ≠ none → s.phase = .idle)

/-- From a block without a fault record the agreement passes to any state with its latches and its trace, whatever record that
state holds. -/
theorem TraceExplainsLatches.of_unfaulted {s t : State} (h : TraceExplainsLatches s) (hf : s.fault = none)
    (hlatches : t.latches = s.latches) (htrace : t.trace = s.trace) : TraceExplainsLatches t := by
  intro p
  have hp := h p
  rw [hlatches, htrace]
  split at hp
  · exact hp
  · exact .inl (hp.resolve_right (by simp [hf]))

/-- A successful write gives its pin the level of the event it appends. -/
theorem traceExplainsLatches_commitPin (s : State) (k : Nat) (j : PinJob) (rest : List PinJob) (b : UVal BusMode)
    (h : TraceExplainsLatches s) : TraceExplainsLatches (commitPin j k rest b (drawPin s)) := by
  intro p
  have hp := h p
  rw [commitPin_latches, commitPin_trace, commitPin_fault, drawPin_latches, drawPin_trace, drawPin_fault, getLatch_setLatch,
    lastLevel_append_singleton]
  by_cases hj : p = j.pin
  · simp [hj, jobEvent]
  · simpa [hj, Ne.symm hj, jobEvent] using hp

/-- A failed write leaves its pin `U`, and the record names that pin. -/
theorem traceExplainsLatches_raisePinFault (p : Pin) (s : State) (hf : s.fault = none) (h : TraceExplainsLatches s) :
    TraceExplainsLatches (raisePinFault p s) := by
  intro q
  have hother := h.of_unfaulted (t := raiseFault (.pinFault p) s) hf rfl rfl q
  rw [raisePinFault_latches, raisePinFault_trace, raisePinFault_fault, getLatch_setLatch]
  by_cases hq : q = p
  · simp [hq]
  · rw [if_neg hq]
    exact hother

theorem agreesUntilFault_pinStep (s : State) (h : AgreesUntilFault s) : AgreesUntilFault (pinStep s) := by
  refine pinStep_keeps AgreesUntilFault (fun _ ⟨h, _⟩ => ⟨h, fun _ => rfl⟩) (fun s k j rest b hp ⟨h, hidle⟩ => ?_)
    (fun s k j rest b hp ⟨h, hidle⟩ => ?_) s h
  · exact ⟨traceExplainsLatches_commitPin s k j rest b h, fun hf => absurd (fault_eq_none_of_run hidle hp) hf⟩
  · exact ⟨traceExplainsLatches_raisePinFault j.pin (drawPin s) (fault_eq_none_of_run hidle hp) h, fun _ => rfl⟩

/-- The accepting step writes no latch and no event. -/
theorem agreesUntilFault_start (i : Instr) (s : State) (hf : s.fault = none) (h : TraceExplainsLatches s) :
    AgreesUntilFault (start i s) := by
  obtain ⟨c, hs⟩ | ⟨jobs, n, hs, -⟩ := start_cases i s
  · rw [hs]
    exact ⟨h.of_unfaulted hf rfl rfl, fun _ => rfl⟩
  · rw [hs]
    exact ⟨h.of_unfaulted hf (by simp) (by simp), by simp [hf]⟩

/-- Settles O15, by the cases of a step and, for a running command, of its next pin write. -/
theorem stepKeepsTraceLatchAgreement : Obligations.StepKeepsTraceLatchAgreement := by
  intro s t h hstep
  obtain ⟨hf, ⟨-, rfl⟩ | ⟨-, i, rest, rfl⟩ | ⟨-, f, rest, rfl⟩ | ⟨-, cs, rfl⟩⟩ := step_cases s t hstep
  · exact (agreesUntilFault_pinStep s ⟨h, by simp [hf]⟩).1
  · exact (complete_keeps AgreesUntilFault agreesUntilFault_pinStep _
      (agreesUntilFault_start i { s with commands := rest } hf h)).1
  · exact h.of_unfaulted hf rfl rfl
  · exact h

end Sys2Proof.Safety

namespace Sys2Proof.Machine

open Sys2Proof.Safety

/-! ### Where a completed command leaves the latches -/

/-- The latches a command leaves when it completes; a command that never completes leaves them as they are. -/
def endLatches : Instr → Latches → Latches
  | .setmodeInactive, l => modeLatches l .inactive
  | .setmodeWrite, l => modeLatches l .write
  | .setmodeAddress, l => modeLatches l .address
  | .wrbus v, l => busLatches l v
  | .wrreg _ v, l => modeLatches (busLatches l v) .inactive
  | .setrst x, l => setLatch l .rst (.known x)
  | .setmodeRead, l => l
  | .rdreg _, l => l

/-- A list of pin writes that ends without a fault has made every one of them. -/
theorem latches_complete_load (jobs : List PinJob) (s : State) (hne : jobs ≠ [])
    (hf : (complete (load jobs s)).fault = none) : (complete (load jobs s)).latches = latchAll jobs s.latches := by
  obtain ⟨n, -, -, -, -, ⟨-, -, hl⟩ | ⟨j, -, -, -, hfault, -⟩⟩ :=
    pinSteps_outcome jobs 0 (modeOf s.latches) (load jobs s) hne rfl
  · exact hl
  · exact absurd (hf.symm.trans hfault) (by simp)

theorem latches_complete_startSetMode (m : BusMode) (s : State) (hf : (complete (startSetMode m s)).fault = none) :
    (complete (startSetMode m s)).latches = modeLatches s.latches m := by
  have h := latches_complete_load _ _ (modeJobs_ne_nil m (controlOrder s 0)) hf
  rwa [latchAll_modeJobs, drawOrders_latches] at h

/-- A command that ends without a fault leaves the latches its completion gives. -/
theorem latches_of_completed (i : Instr) (s t : State) (h : exec i s = .next t) (hf : t.fault = none) :
    t.latches = endLatches i s.latches := by
  obtain ⟨-, -, rfl⟩ := (exec_eq_next i s t).1 h
  cases i with
  | setmodeInactive => exact latches_complete_startSetMode .inactive s hf
  | setmodeWrite => exact latches_complete_startSetMode .write s hf
  | setmodeAddress => exact latches_complete_startSetMode .address s hf
  | wrbus v => exact latches_complete_load (busJobs v) s (List.cons_ne_nil _ _) hf
  | wrreg a v =>
    have h := latches_complete_load _ _ (List.ne_nil_of_length_eq_add_one (regJobs_length a v _ _ _ _)) hf
    rwa [latchAll_regJobs, drawOrders_latches] at h
  | setrst l =>
    simp only [start, startSetrst] at hf ⊢
    split at hf
    · next hline =>
      rw [if_pos hline]
      exact latches_complete_load [plainJob .rst l] s (List.cons_ne_nil _ _) hf
    · exact absurd hf (by simp [complete])
  | setmodeRead => rfl
  | rdreg a => rfl

/-- A completed command keeps the mode, or ends in one of the three it drives. -/
theorem modeOf_endLatches (i : Instr) (l : Latches) :
    modeOf (endLatches i l) = modeOf l ∨ ∃ m ≠ .read, modeOf (endLatches i l) = .known m := by
  cases i with
  | setmodeInactive => exact .inr ⟨.inactive, by decide, modeOf_modeLatches _ _⟩
  | setmodeWrite => exact .inr ⟨.write, by decide, modeOf_modeLatches _ _⟩
  | setmodeAddress => exact .inr ⟨.address, by decide, modeOf_modeLatches _ _⟩
  | wrreg a v => exact .inr ⟨.inactive, by decide, modeOf_modeLatches _ _⟩
  | wrbus v => exact .inl (modeOf_busLatches l v)
  | setrst x => exact .inl rfl
  | setmodeRead => exact .inl rfl
  | rdreg a => exact .inl rfl

/-- Settles O40: a command that completes keeps the mode or ends in a mode other than READ. -/
theorem completedCommandLeavesReadOnlyIfFoundThere : Obligations.CompletedCommandLeavesReadOnlyIfFoundThere := by
  intro i s t h hf hread
  rw [latches_of_completed i s t h hf] at hread
  obtain hkeep | ⟨m, hm, hdriven⟩ := modeOf_endLatches i s.latches
  · exact hkeep ▸ hread
  · exact absurd (UVal.known.inj (hdriven.symm.trans hread)) hm

end Sys2Proof.Machine

/-! The statements of 10_state.md: reset, how a command comes to run, and what a run of one depends on and leaves unchanged. -/

namespace Sys2Proof.Machine

open Sys2Proof.Safety

/-! ### Reset -/

/-- Settles O12: the table is read off `State.reset`. -/
theorem resetStateIsTheTable : Obligations.ResetStateIsTheTable :=
  ⟨fun p => by cases p <;> rfl, rfl, rfl, rfl, rfl, rfl, rfl, memRead_nil, rfl⟩

theorem inv_reset : Inv State.reset :=
  ⟨wf_nil, Nat.succ_pos Config.clockHzPred, fun _ => rfl, trivial, fun _ => ⟨rfl, fun _ he => absurd he List.not_mem_nil⟩⟩

theorem traceExplainsLatches_reset : TraceExplainsLatches State.reset := fun p => by
  rw [resetStateIsTheTable.1 p]
  exact .inl rfl

/-- Settles O13. -/
theorem resetMeetsInvariants : Obligations.ResetMeetsInvariants := ⟨inv_reset, traceExplainsLatches_reset⟩

/-! ### The port -/

section Port

variable (run : Instr → State → Host.Outcome State Fault Refusal)

/-- A block that takes commands takes the first one presented. -/
theorem portStep_ready {s : State} {c : HostCommand} {rest : List HostCommand} (hr : Ready s) (hc : s.commands = c :: rest) :
    portStep run s = takeCommand run c { s with commands := rest } := by
  simp only [portStep, show s.fault = none from hr.1, show s.phase = .idle from hr.2, hc]

theorem portStep_running {s : State} (hf : s.fault = none) (hp : s.phase ≠ .idle) : portStep run s = .next (pinStep s) := by
  unfold portStep
  rw [hf]
  cases hph : s.phase with
  | idle => exact absurd hph hp
  | run k todo b => rfl

theorem portStep_nothing_presented {s : State} (hr : Ready s) (hc : s.commands = []) :
    portStep run s = .fault .awaitingCommand := by
  simp only [portStep, show s.fault = none from hr.1, show s.phase = .idle from hr.2, hc]

theorem takeCommand_word {w : Word} {i : Instr} (hw : decode w = .ok i) (s : State) :
    takeCommand run (.word w) s = run i s := by
  simp only [takeCommand, hw]

end Port

/-- What presenting a command can be: the run of a decoded command, or one next state that no command runs for. -/
theorem takeCommand_cases (c : HostCommand) (s : State) :
    (∃ i, ∀ run, takeCommand run c s = run i s) ∨ ∃ t, ∀ run, takeCommand run c s = .next t := by
  cases c with
  | word w =>
    cases hw : decode w with
    | ok i => exact .inl ⟨i, fun run => takeCommand_word run hw s⟩
    | error e => exact .inr ⟨raiseFault (.illegalCommand w) s, fun run => by simp only [takeCommand, hw]⟩
  | pseudo p =>
    cases hp : expand s.params.clockHz p with
    | ok ws =>
      exact .inr ⟨{ s with commands := ws.map writeCommand ++ s.commands }, fun run => by simp only [takeCommand, hp]⟩
    | error f => exact .inr ⟨raiseFault f s, fun run => by simp only [takeCommand, hp]⟩

/-- Settles O6. -/
theorem stepRunsDecodedCommand : Obligations.StepRunsDecodedCommand := by
  intro s w rest i hr hc hw
  exact (portStep_ready exec hr hc).trans (takeCommand_word exec hw _)

/-- Every command is read back from its own word. -/
theorem decode_encode (i : Instr) : decode (encode i) = .ok i := by
  cases i with
  | setrst l => cases l <;> rfl
  | wrbus v => simp [encode, decode, decodeB]
  | wrreg a v => simp [encode, decode, decodeR]
  | rdreg a => simp [encode, decode, decodeA]
  | setmodeInactive => rfl
  | setmodeRead => rfl
  | setmodeWrite => rfl
  | setmodeAddress => rfl

/-- A word presented by its bits is the word presented. -/
theorem withFetchWord_toNat (s : State) (w : Word) : s.withFetchWord 24 w.toNat = presentWord w s := by
  unfold State.withFetchWord
  rw [Nat.mod_eq_of_lt w.isLt, BitVec.ofNat_toNat, BitVec.setWidth_eq]

/-- Settles O7: the presented word is taken first, and decodes to the command. -/
theorem presentedWordRunsNext : Obligations.PresentedWordRunsNext := by
  intro i s
  rw [withFetchWord_toNat]
  exact stepRunsDecodedCommand _ (encode i) s.commands i ⟨rfl, rfl⟩ rfl (decode_encode i)

theorem exec_running (i : Instr) {s : State} (hf : s.fault = none) (hp : s.phase ≠ .idle) :
    exec i s = .fault .commandInProgress := by
  rw [exec_eq_command]
  unfold command
  rw [hf]
  cases hph : s.phase with
  | idle => exact absurd hph hp
  | run k todo b => rfl

/-- Settles O11. -/
theorem commandsAreTakenInIdleOnly : Obligations.CommandsAreTakenInIdleOnly := fun _ hf =>
  ⟨fun hp => ⟨portStep_running exec hf hp, fun i => exec_running i hf hp⟩,
    fun hp hc => portStep_nothing_presented exec ⟨hf, hp⟩ hc⟩

/-! ### Pin writes one by one -/

theorem microRun_succ {s t : State} (n : Nat) (h : microStep s = .next t) : microRun (n + 1) s = microRun n t := by
  rw [microRun, h]

/-- A running command reaches its end in single steps, at most one for each pin write left; fewer where a failed write cuts it,
after which there is no step. -/
theorem microRun_pinSteps (todo : List PinJob) : ∀ (k : Nat) (b : UVal BusMode) (s : State), todo ≠ [] →
    s.fault = none → s.phase = .run k todo b → ∃ n ≤ todo.length, microRun n s = .next (pinSteps todo.length s) := by
  induction todo with
  | nil => intro _ _ _ h; exact absurd rfl h
  | cons j rest ih =>
    intro k b s _ hf hp
    have hmicro : microStep s = .next (pinStep s) := portStep_running _ hf (by simp [hp])
    rw [List.length_cons, pinSteps]
    by_cases hidle : (pinStep s).phase = .idle
    · exact ⟨1, by omega, by rw [microRun_succ 0 hmicro, pinSteps_idle _ _ hidle]; rfl⟩
    · have hstep := pinStep_run s k j rest b hp
      have h0 : pinAnswer s 0 = true := by
        by_contra h0
        exact hidle (by rw [hstep, if_neg h0]; rfl)
      rw [if_pos h0] at hstep
      rw [hstep] at hmicro hidle ⊢
      cases rest with
      | nil => exact absurd rfl hidle
      | cons j' rest' =>
        obtain ⟨n, hn, hrun⟩ := ih (k + 1) _ (commitPin j k (j' :: rest') b (drawPin s)) (List.cons_ne_nil _ _) hf rfl
        exact ⟨n + 1, by omega, (microRun_succ n hmicro).trans hrun⟩

/-- After its accepting step a command reaches its end in at most 24 single steps. -/
theorem microRun_start (i : Instr) (s : State) (hf : s.fault = none) :
    ∃ n ≤ 24, microRun n (start i s) = .next (complete (start i s)) := by
  obtain ⟨c, hs⟩ | ⟨jobs, n, hs, hne, hlen, hle, -⟩ := start_cases i s
  · exact ⟨0, by omega, by rw [hs]; rfl⟩
  · obtain ⟨m, hm, hrun⟩ := microRun_pinSteps jobs 0 _ (load jobs (drawOrders s n)) hne (by simpa using hf) rfl
    exact ⟨m, by omega, by rw [hs]; exact hrun⟩

/-- Settles O17, by what the presented command can be: a command that runs, or one next state. -/
theorem stepIsAcceptanceThenPinWrites : Obligations.StepIsAcceptanceThenPinWrites := by
  intro s c rest hr hc
  have hport := fun run => portStep_ready run hr hc
  obtain ⟨i, htake⟩ | ⟨t, htake⟩ := takeCommand_cases c { s with commands := rest }
  · obtain ⟨n, hn, hrun⟩ := microRun_start i { s with commands := rest } hr.1
    have haccept : microStep s = .next (start i { s with commands := rest }) := (hport _).trans (htake _)
    have hstep : step s = exec i { s with commands := rest } := (hport exec).trans (htake exec)
    exact ⟨n, hn, by rw [microRun_succ n haccept, hrun, hstep, exec_ready i { s with commands := rest } hr]⟩
  · have haccept : microStep s = .next t := (hport _).trans (htake _)
    have hstep : step s = .next t := (hport exec).trans (htake exec)
    exact ⟨0, by omega, by rw [microRun_succ 0 haccept, hstep]; rfl⟩

/-- Part of the way through a list of pin writes that have succeeded so far. -/
theorem phase_pinSteps (m : Nat) : ∀ (todo : List PinJob) (k : Nat) (b : UVal BusMode) (s : State),
    s.phase = .run k todo b → m < todo.length → PinsInfallible s m →
    ∃ b', (pinSteps m s).phase = .run (k + m) (todo.drop m) b' := by
  induction m with
  | zero => intro todo k b s hp _ _; exact ⟨b, hp⟩
  | succ m ih =>
    intro todo k b s hp hm hok
    match todo, hm with
    | j :: j' :: rest, hm =>
      rw [pinSteps, pinStep_run s k j (j' :: rest) b hp, if_pos (hok 0 (Nat.succ_pos m)), List.drop_succ_cons, ← Nat.add_assoc,
        Nat.add_right_comm]
      exact ih (j' :: rest) (k + 1) _ _ rfl (Nat.lt_of_succ_lt_succ hm) fun i hi =>
        (pinAnswer_commitPin j k _ b s i).trans (hok (i + 1) (Nat.succ_lt_succ hi))

/-- Settles O18: the phases from `phase_pinSteps`, the end from the closed form of a list of writes that all succeed. -/
theorem acceptedCommandEndsAfterItsCount : Obligations.AcceptedCommandEndsAfterItsCount := by
  intro i s hr hfault hok
  obtain ⟨c, hs⟩ | ⟨jobs, n, hs, hne, hlen, -, -⟩ := start_cases i s
  · rw [hs] at hfault
    exact absurd hfault (by simp)
  · have hokay : PinsInfallible (load jobs (drawOrders s n)) jobs.length := fun k hk =>
      (pinAnswer_drawOrders s n k).trans (hok k (hlen ▸ hk))
    have hend := (pinSteps_infallible jobs 0 _ _ rfl hokay).trans (commitAll_eq jobs 0 _ _ hne)
    have hsf : s.fault = none := hr.1
    rw [exec_ready i s hr, hs, ← hlen]
    refine ⟨fun k hk => ?_, rfl, ?_⟩
    · obtain ⟨b, hb⟩ := phase_pinSteps k jobs 0 _ _ rfl hk fun m hm => hokay m (hm.trans hk)
      exact ⟨jobs.drop k, b, by rw [hb, Nat.zero_add], List.length_drop⟩
    · rw [hend]
      simp [spendPins, hsf]

/-! ### What every step keeps -/

/-- Acceptance by itself changes only the phase, the fault register and the draws of order. -/
theorem start_keeps (i : Instr) (s : State) :
    (start i s).latches = s.latches ∧ (start i s).trace = s.trace ∧ (start i s).dev = s.dev
      ∧ (start i s).params = s.params ∧ (start i s).commands = s.commands := by
  obtain ⟨c, hs⟩ | ⟨jobs, n, hs, -⟩ := start_cases i s
  · simp [hs]
  · simp [hs]

/-- Nothing of the trace, the hazard mark or the parameters of `s` is lost in `t`. -/
structure Extends (s t : State) : Prop where
  trace : ∃ new, t.trace = s.trace ++ new
  hazard : s.dev.hazard = true → t.dev.hazard = true
  params : t.params = s.params

theorem Extends.refl (s : State) : Extends s s := ⟨⟨[], (List.append_nil _).symm⟩, id, rfl⟩

/-- What a state extends, any state with the same trace, image and parameters does. -/
theorem Extends.of_eq {s t u : State} (h : Extends s t) (htrace : u.trace = t.trace) (hdev : u.dev = t.dev)
    (hpar : u.params = t.params) : Extends s u :=
  ⟨htrace ▸ h.trace, hdev ▸ h.hazard, hpar ▸ h.params⟩

theorem Extends.pinStep {s : State} (t : State) (h : Extends s t) : Extends s (pinStep t) := by
  refine pinStep_keeps (Extends s) (fun _ h => h.of_eq rfl rfl rfl) (fun u k j rest b _ h => ?_)
    (fun _ _ _ _ _ _ h => h.of_eq rfl rfl rfl) t h
  obtain ⟨⟨new, hnew⟩, hhazard, hpar⟩ := h
  exact ⟨⟨new ++ [jobEvent j], by simp [hnew]⟩, fun hz => hazard_observe _ _ _ _ _ _ (hhazard hz), hpar⟩

theorem Extends.start {s t : State} (h : Extends s t) (i : Instr) : Extends s (start i t) := by
  obtain ⟨-, htrace, hdev, hpar, -⟩ := start_keeps i t
  exact h.of_eq htrace hdev hpar

theorem Extends.step {s t : State} (hstep : step s = .next t) : Extends s t := by
  have taken (rest : List HostCommand) : Extends s { s with commands := rest } := (Extends.refl s).of_eq rfl rfl rfl
  obtain ⟨-, ⟨-, rfl⟩ | ⟨-, i, rest, rfl⟩ | ⟨-, f, rest, rfl⟩ | ⟨-, cs, rfl⟩⟩ := step_cases s t hstep
  · exact .pinStep s (.refl s)
  · exact complete_keeps (Extends s) .pinStep _ ((taken rest).start i)
  · exact (taken rest).of_eq rfl rfl rfl
  · exact taken cs

/-- Settles O16: a command's pin writes each extend what its accepting step left. -/
theorem stepOnlyAppendsToTrace : Obligations.StepOnlyAppendsToTrace := fun _ _ hstep =>
  have h := Extends.step hstep
  ⟨h.trace, h.hazard, h.params⟩

/-! ### The pin writes still to come -/

/-- What a block has still to write. -/
def pending : Phase → List PinJob
  | .idle => []
  | .run _ todo _ => todo

theorem pending_commitPin (j : PinJob) (k : Nat) (rest : List PinJob) (b : UVal BusMode) (s : State) :
    pending (commitPin j k rest b s).phase = rest := by
  cases rest <;> rfl

theorem complete_eq_pinSteps (s : State) : complete s = pinSteps (pending s.phase).length s := by
  unfold complete
  cases s.phase <;> rfl

theorem pinStep_of_pending_nil {s : State} (h : pending s.phase = []) : pinStep s = { s with phase := .idle } := by
  cases hp : s.phase with
  | idle => rw [pinStep_idle s hp, ← hp]
  | run k todo b =>
    obtain rfl : todo = [] := by simpa [hp, pending] using h
    unfold pinStep
    rw [hp]

theorem pinStep_of_pending_cons {s : State} {j : PinJob} {rest : List PinJob} (h : pending s.phase = j :: rest) :
    ∃ k b, pinStep s = if pinAnswer s 0 then commitPin j k rest b (drawPin s) else raisePinFault j.pin (drawPin s) := by
  cases hp : s.phase with
  | idle => simp [hp, pending] at h
  | run k todo b =>
    obtain rfl : todo = j :: rest := by simpa [hp, pending] using h
    exact ⟨k, b, pinStep_run s k j rest b hp⟩

/-! ### The frame of a command -/

/-- A command always ends idle. -/
theorem phase_complete_start (i : Instr) (s : State) : (complete (start i s)).phase = .idle := by
  obtain ⟨c, hs⟩ | ⟨jobs, n, hs, hne, -⟩ := start_cases i s
  · rw [hs]
    rfl
  · obtain ⟨-, -, -, -, hidle, -⟩ := pinSteps_outcome jobs 0 _ (load jobs (drawOrders s n)) hne rfl
    rw [hs]
    exact hidle

/-- The parameters, the presented commands and the choices of order, which no pin write touches. -/
def SameInputs (s t : State) : Prop :=
  t.params = s.params ∧ t.commands = s.commands ∧ t.orderChoices = s.orderChoices ∧ t.orderDraws = s.orderDraws

theorem sameInputs_complete (s : State) : SameInputs s (complete s) :=
  complete_keeps (SameInputs s)
    (pinStep_keeps (SameInputs s) (fun _ h => h) (fun _ _ _ _ _ _ h => h) fun _ _ _ _ _ _ h => h) s ⟨rfl, rfl, rfl, rfl⟩

/-- The eight data lines. -/
def dataPins : List Pin := [.d0, .d1, .d2, .d3, .d4, .d5, .d6, .d7]

/-- The two control lines. -/
def controlPins : List Pin := [.bdir, .bc1]

/-- The pins a command writes. -/
def pinsOf : Instr → List Pin
  | .setmodeInactive => controlPins
  | .setmodeWrite => controlPins
  | .setmodeAddress => controlPins
  | .wrbus _ => dataPins
  | .wrreg _ _ => dataPins ++ controlPins
  | .setrst _ => [.rst]
  | .setmodeRead => []
  | .rdreg _ => []

theorem modeJobs_pins (m : BusMode) (o : ControlOrder) : ∀ j ∈ modeJobs m o, j.pin ∈ controlPins := by
  cases o <;> simp [modeJobs, controlPins]

theorem busJobs_pins (v : Byte) : ∀ j ∈ busJobs v, j.pin ∈ dataPins := by
  simp [busJobs, plainJob, dataPins]

theorem regJobs_pins (a v : Byte) (o1 o2 o3 o4 : ControlOrder) :
    ∀ j ∈ regJobs a v o1 o2 o3 o4, j.pin ∈ dataPins ++ controlPins := by
  have hbus (v : Byte) : ∀ j ∈ busJobs v, j.pin ∈ dataPins ++ controlPins := fun j hj =>
    List.mem_append_left _ (busJobs_pins v j hj)
  have hmode (m : BusMode) (o : ControlOrder) : ∀ j ∈ modeJobs m o, j.pin ∈ dataPins ++ controlPins := fun j hj =>
    List.mem_append_right _ (modeJobs_pins m o j hj)
  simp only [regJobs, List.forall_mem_append]
  exact ⟨⟨⟨⟨⟨hmode _ _, hbus _⟩, hmode _ _⟩, hmode _ _⟩, hbus _⟩, hmode _ _⟩

theorem startSetrst_of_line {s : State} (h : s.params.hasResetLine = true) (l : Level) :
    startSetrst l s = load [plainJob .rst l] s := if_pos h

theorem startSetrst_of_no_line {s : State} (h : ¬s.params.hasResetLine = true) (l : Level) :
    startSetrst l s = raiseFault (.unsupported .noResetLine) s := if_neg h

/-- An accepted command writes its own pins only. -/
theorem start_pins (i : Instr) (s : State) : ∀ j ∈ pending (start i s).phase, j.pin ∈ pinsOf i := by
  cases i with
  | setmodeInactive => exact modeJobs_pins .inactive (controlOrder s 0)
  | setmodeWrite => exact modeJobs_pins .write (controlOrder s 0)
  | setmodeAddress => exact modeJobs_pins .address (controlOrder s 0)
  | wrbus v => exact busJobs_pins v
  | wrreg a v => exact regJobs_pins a v (controlOrder s 0) (controlOrder s 1) (controlOrder s 2) (controlOrder s 3)
  | setrst l =>
    by_cases hline : s.params.hasResetLine = true
    · simp [start, startSetrst_of_line hline, pending, plainJob, pinsOf]
    · simp [start, startSetrst_of_no_line hline, pending]
  | setmodeRead => exact fun _ hj => absurd hj List.not_mem_nil
  | rdreg a => exact fun _ hj => absurd hj List.not_mem_nil

/-- The latch of `p` holds `x`, and nothing still to write is on `p`. -/
def LatchStays (p : Pin) (x : Latch) (s : State) : Prop :=
  getLatch s.latches p = x ∧ ∀ j ∈ pending s.phase, j.pin ≠ p

theorem latchStays_pinStep (p : Pin) (x : Latch) (s : State) (h : LatchStays p x s) : LatchStays p x (pinStep s) := by
  obtain ⟨hx, hpins⟩ := h
  cases hp : pending s.phase with
  | nil =>
    rw [pinStep_of_pending_nil hp]
    exact ⟨hx, fun _ hj => absurd hj List.not_mem_nil⟩
  | cons j rest =>
    obtain ⟨hj, hrest⟩ : j.pin ≠ p ∧ ∀ i ∈ rest, i.pin ≠ p := by simpa [hp] using hpins
    have hother (y : Latch) : getLatch (setLatch s.latches j.pin y) p = x :=
      (getLatch_setLatch_other _ _ _ _ hj.symm).trans hx
    obtain ⟨k, b, hstep⟩ := pinStep_of_pending_cons hp
    rw [hstep]
    split
    · exact ⟨hother _, by rwa [pending_commitPin]⟩
    · exact ⟨hother _, fun _ hi => absurd hi List.not_mem_nil⟩

/-- A command leaves the latch of every pin it does not write. -/
theorem getLatch_complete_start (i : Instr) (s : State) (p : Pin) (hp : p ∉ pinsOf i) :
    getLatch (complete (start i s)).latches p = getLatch s.latches p := by
  have hstart : LatchStays p (getLatch s.latches p) (start i s) :=
    ⟨by rw [(start_keeps i s).1], fun j hj hjp => hp (hjp ▸ start_pins i s j hj)⟩
  exact (complete_keeps _ (latchStays_pinStep p _) _ hstart).1

theorem setrst_draws_no_order (l : Level) (s : State) :
    (start (.setrst l) s).orderChoices = s.orderChoices ∧ (start (.setrst l) s).orderDraws = s.orderDraws := by
  by_cases hline : s.params.hasResetLine = true
  · simp [start, startSetrst_of_line hline]
  · simp [start, startSetrst_of_no_line hline]

/-- Settles O42: a latch changes only where the command writes its pin, and what is no latch only at acceptance. -/
theorem latchFrameOfCommands : Obligations.LatchFrameOfCommands := by
  intro i s t h
  obtain ⟨-, hidle, rfl⟩ := (exec_eq_next i s t).1 h
  have hlatch := getLatch_complete_start i s
  obtain ⟨hpar, hcmd, hchoices, hdraws⟩ := sameInputs_complete (start i s)
  obtain ⟨-, -, -, hpar', hcmd'⟩ := start_keeps i s
  refine ⟨hpar.trans hpar', hcmd.trans hcmd', phase_complete_start i s, ?_, ?_, ?_, ?_, ?_⟩
  · rintro (rfl | rfl | rfl) p hbdir hbc1 <;> exact hlatch p (by simp [pinsOf, controlPins, hbdir, hbc1])
  · rintro v rfl
    exact ⟨hlatch .bdir (by simp [pinsOf, dataPins]), hlatch .bc1 (by simp [pinsOf, dataPins]),
      hlatch .rst (by simp [pinsOf, dataPins]), hchoices, hdraws⟩
  · rintro a v rfl
    exact hlatch .rst (by simp [pinsOf, dataPins, controlPins])
  · rintro l rfl
    obtain ⟨hchoices', hdraws'⟩ := setrst_draws_no_order l s
    exact ⟨fun p hp => hlatch p (by simpa [pinsOf] using hp), hchoices.trans hchoices', hdraws.trans hdraws'⟩
  · rintro (rfl | ⟨a, rfl⟩) <;> exact ⟨rfl, rfl, rfl, rfl, rfl, rfl, rfl⟩

/-! ### Two runs of one command -/

/-- From `s0` and from `u0` the blocks `s` and `u` have made the same pin writes, and will make the same ones. -/
structure SameWrites (s0 u0 s u : State) : Prop where
  fault : u.fault = s.fault
  answers : u.pinAnswers = s.pinAnswers
  draws : u.pinDraws = s.pinDraws
  todo : pending u.phase = pending s.phase
  trace : ∃ new, s.trace = s0.trace ++ new ∧ u.trace = u0.trace ++ new
  latches : u0.latches = s0.latches → u.latches = s.latches

namespace SameWrites

variable {s0 u0 s u : State}

theorem load (h : SameWrites s0 u0 s u) (jobs : List PinJob) :
    SameWrites s0 u0 (load jobs s) (load jobs u) :=
  { h with todo := rfl }

theorem raiseFault (h : SameWrites s0 u0 s u) (f : BlockFault) :
    SameWrites s0 u0 (raiseFault f s) (raiseFault f u) :=
  { h with fault := rfl, todo := rfl }

theorem drawOrders (h : SameWrites s0 u0 s u) (n : Nat) :
    SameWrites s0 u0 (drawOrders s n) (drawOrders u n) :=
  ⟨by simpa using h.fault, by simpa using h.answers, by simpa using h.draws, by simpa using h.todo,
    by simpa using h.trace, by simpa using h.latches⟩

/-- The number of the write and the mode before it, which only the observer reads, may differ. -/
theorem commitPin (h : SameWrites s0 u0 s u) (j : PinJob) (rest : List PinJob) (k k' : Nat) (b b' : UVal BusMode) :
    SameWrites s0 u0 (commitPin j k rest b (drawPin s)) (commitPin j k' rest b' (drawPin u)) where
  fault := h.fault
  answers := congrArg List.tail h.answers
  draws := congrArg (· + 1) h.draws
  todo := by rw [pending_commitPin, pending_commitPin]
  trace := by
    obtain ⟨new, hs, hu⟩ := h.trace
    exact ⟨new ++ [jobEvent j], by simp [hs], by simp [hu]⟩
  latches hl := congrArg (setLatch · j.pin (.known j.level)) (h.latches hl)

theorem raisePinFault (h : SameWrites s0 u0 s u) (p : Pin) :
    SameWrites s0 u0 (raisePinFault p (drawPin s)) (raisePinFault p (drawPin u)) where
  fault := rfl
  answers := congrArg List.tail h.answers
  draws := congrArg (· + 1) h.draws
  todo := rfl
  trace := h.trace
  latches hl := congrArg (setLatch · p .U) (h.latches hl)

theorem pinStep (h : SameWrites s0 u0 s u) : SameWrites s0 u0 (pinStep s) (pinStep u) := by
  have hpending := h.todo
  cases hp : pending s.phase with
  | nil =>
    rw [hp] at hpending
    rw [pinStep_of_pending_nil hp, pinStep_of_pending_nil hpending]
    exact { h with todo := rfl }
  | cons j rest =>
    rw [hp] at hpending
    obtain ⟨k, b, hs⟩ := pinStep_of_pending_cons hp
    obtain ⟨k', b', hu⟩ := pinStep_of_pending_cons hpending
    rw [hs, hu, pinAnswer_congr s u h.answers h.draws]
    split
    · exact h.commitPin j rest k k' b b'
    · exact h.raisePinFault j.pin

theorem pinSteps (n : Nat) : ∀ {s u : State}, SameWrites s0 u0 s u → SameWrites s0 u0 (pinSteps n s) (pinSteps n u) := by
  induction n with
  | zero => exact fun h => h
  | succ n ih => exact fun h => ih h.pinStep

theorem complete (h : SameWrites s0 u0 s u) : SameWrites s0 u0 (complete s) (complete u) := by
  rw [complete_eq_pinSteps, complete_eq_pinSteps, h.todo]
  exact h.pinSteps _

end SameWrites

/-- A block with other latches, another device image and another trace. -/
def withOutputs (s : State) (l : Latches) (d : Dev) (tr : List Event) : State :=
  { s with latches := l, dev := d, trace := tr }

theorem sameWrites_withOutputs (s : State) (l : Latches) (d : Dev) (tr : List Event) :
    SameWrites s (withOutputs s l d tr) s (withOutputs s l d tr) :=
  ⟨rfl, rfl, rfl, rfl, ⟨[], (List.append_nil _).symm, (List.append_nil _).symm⟩, id⟩

/-- Acceptance reads neither the latches nor the ghost state for what it will write. -/
theorem sameWrites_start (i : Instr) (s : State) (l : Latches) (d : Dev) (tr : List Event) :
    SameWrites s (withOutputs s l d tr) (start i s) (start i (withOutputs s l d tr)) := by
  have h := sameWrites_withOutputs s l d tr
  cases i with
  | setmodeInactive => exact (h.drawOrders 1).load (modeJobs .inactive (controlOrder s 0))
  | setmodeWrite => exact (h.drawOrders 1).load (modeJobs .write (controlOrder s 0))
  | setmodeAddress => exact (h.drawOrders 1).load (modeJobs .address (controlOrder s 0))
  | wrbus v => exact h.load (busJobs v)
  | wrreg a v => exact (h.drawOrders 4).load _
  | setrst x =>
    by_cases hline : s.params.hasResetLine = true
    · rw [start, startSetrst_of_line hline, startSetrst_of_line (s := withOutputs s l d tr) hline]
      exact h.load _
    · rw [start, startSetrst_of_no_line hline, startSetrst_of_no_line (s := withOutputs s l d tr) hline]
      exact h.raiseFault _
  | setmodeRead => exact h.raiseFault _
  | rdreg a => exact h.raiseFault _

/-- The same command from other latches and another ghost state makes the same pin writes to the same end. -/
theorem exec_withOutputs {i : Instr} {s t : State} (h : exec i s = .next t) (l : Latches) (d : Dev) (tr : List Event) :
    ∃ u, exec i (withOutputs s l d tr) = .next u ∧ SameWrites s (withOutputs s l d tr) t u ∧ u.phase = t.phase := by
  obtain ⟨hf, hidle, rfl⟩ := (exec_eq_next i s t).1 h
  exact ⟨_, exec_ready i (withOutputs s l d tr) ⟨hf, hidle⟩, (sameWrites_start i s l d tr).complete,
    (phase_complete_start i _).trans (phase_complete_start i s).symm⟩

/-- Settles O20: the same run with the latches kept. -/
theorem ghostStateIsNeverRead : Obligations.GhostStateIsNeverRead := by
  intro i s t d tr h
  obtain ⟨u, hu, hsame, hphase⟩ := exec_withOutputs h s.latches d tr
  obtain ⟨new, ht, hnew⟩ := hsame.trace
  exact ⟨new, u, ht, hu, hnew, hsame.latches rfl, hsame.fault, hphase⟩

/-- Settles O21: the same run with the ghost state kept. -/
theorem eventsDoNotDependOnLatches : Obligations.EventsDoNotDependOnLatches := by
  intro i s t l h
  obtain ⟨u, hu, hsame, -⟩ := exec_withOutputs h l s.dev s.trace
  obtain ⟨new, ht, hnew⟩ := hsame.trace
  exact ⟨new, u, ht, hu, hnew, hsame.fault⟩

end Sys2Proof.Machine

/-! The statements of 20_memory.md: what the device observer does at one edge, over a command's pin writes, and over the register
writes of a pseudo-command. -/

namespace Sys2Proof.Machine

open Sys2Proof.Safety

/-! ### One edge -/

@[simp] theorem devEdge_of_unknown_old (d : Dev) (b : UVal Byte) (new : UVal BusMode) : devEdge d .U b new = d := rfl

@[simp] theorem devEdge_of_unknown_new (d : Dev) (old : UVal BusMode) (b : UVal Byte) : devEdge d old b .U = d := by
  cases old <;> rfl

@[simp] theorem devEdge_of_same (d : Dev) (m : UVal BusMode) (b : UVal Byte) : devEdge d m b m = d := by
  cases m with
  | U => rfl
  | known m => exact if_pos rfl

theorem devEdge_of_ne {m n : BusMode} (hmn : m ≠ n) (d : Dev) (b : UVal Byte) :
    devEdge d (.known m) b (.known n) = devEdgeKnown d m b n := if_neg hmn

/-- An edge is no change, or one between two different modes. -/
theorem devEdge_cases (d : Dev) (old : UVal BusMode) (b : UVal Byte) (new : UVal BusMode) :
    devEdge d old b new = d ∨ ∃ m n, old = .known m ∧ devEdge d old b new = devEdgeKnown d m b n := by
  unfold devEdge
  split
  · next m n =>
    split
    · exact .inl rfl
    · exact .inr ⟨m, n, rfl, rfl⟩
  · exact .inl rfl

@[simp] theorem commitData_latch (d : Dev) (b : UVal Byte) : (commitData d b).latch = d.latch := by
  unfold commitData; split <;> rfl

@[simp] theorem commitData_hazard (d : Dev) (b : UVal Byte) : (commitData d b).hazard = d.hazard := by
  unfold commitData; split <;> rfl

theorem commitData_regs_of_latch {d : Dev} {c : BitVec 4} (hc : d.latch = .known c) (b : UVal Byte) :
    (commitData d b).regs = memWrite d.regs c b := by
  simp only [commitData, hc]

theorem commitData_regs_of_no_latch {d : Dev} (hU : d.latch = .U) (b : UVal Byte) : (commitData d b).regs = [] := by
  simp only [commitData, hU]

/-- What a data phase stores does not depend on the hazard mark. -/
theorem commitData_regs_with_hazard (d : Dev) (x : Bool) (b : UVal Byte) :
    (commitData { d with hazard := x } b).regs = (commitData d b).regs := by
  unfold commitData
  cases d.latch <;> rfl

theorem devEdgeKnown_hazard (d : Dev) (m : BusMode) (b : UVal Byte) (n : BusMode) :
    (devEdgeKnown d m b n).hazard = (d.hazard || forbiddenEdge m n) := by
  cases m with
  | write => exact commitData_hazard _ b
  | _ => rfl

theorem devEdgeKnown_latch (d : Dev) (m : BusMode) (b : UVal Byte) (n : BusMode) :
    (devEdgeKnown d m b n).latch = if m = .address then latchOfBus b else d.latch := by
  cases m with
  | write => exact commitData_latch _ b
  | _ => rfl

/-- The registers are those of the data phase that ends, if one does. -/
theorem devEdgeKnown_regs (d : Dev) (m : BusMode) (b : UVal Byte) (n : BusMode) :
    (devEdgeKnown d m b n).regs = if m = .write then (commitData d b).regs else d.regs := by
  cases m with
  | write => exact commitData_regs_with_hazard d _ b
  | _ => rfl

theorem devEdge_latch_of_not_address (d : Dev) {old : UVal BusMode} (hold : old ≠ .known .address) (b : UVal Byte)
    (new : UVal BusMode) : (devEdge d old b new).latch = d.latch := by
  obtain h | ⟨m, n, rfl, h⟩ := devEdge_cases d old b new
  · rw [h]
  · rw [h, devEdgeKnown_latch, if_neg fun hm => hold (congrArg _ hm)]

theorem devEdge_regs_of_not_write (d : Dev) {old : UVal BusMode} (hold : old ≠ .known .write) (b : UVal Byte)
    (new : UVal BusMode) : (devEdge d old b new).regs = d.regs := by
  obtain h | ⟨m, n, rfl, h⟩ := devEdge_cases d old b new
  · rw [h]
  · rw [h, devEdgeKnown_regs, if_neg fun hm => hold (congrArg _ hm)]

/-- An edge stores at the latched address, if at all. -/
theorem memRead_devEdge_other {d : Dev} {c : BitVec 4} (hc : d.latch = .known c) (old : UVal BusMode) (b : UVal Byte)
    (new : UVal BusMode) {r : Nat} (hr : r ≠ c.toNat) : memRead (devEdge d old b new).regs r = memRead d.regs r := by
  obtain h | ⟨m, n, -, h⟩ := devEdge_cases d old b new
  · rw [h]
  · rw [h, devEdgeKnown_regs]
    split
    · rw [commitData_regs_of_latch hc, memRead_memWrite_other _ _ _ _ hr]
    · rfl

theorem forbiddenEdge_iff (m n : BusMode) :
    forbiddenEdge m n = true ↔ n = .read ∨ (m = .address ∧ n = .write) ∨ (m = .write ∧ n = .address) := by
  simp [forbiddenEdge, or_assoc]

/-- Clauses 2 and 3 of 20_memory.md R41. -/
theorem devEdge_hazard_iff {m n : BusMode} (hmn : m ≠ n) (d : Dev) (b : UVal Byte) :
    (devEdge d (.known m) b (.known n)).hazard = true ↔
      d.hazard = true ∨ n = .read ∨ (m = .address ∧ n = .write) ∨ (m = .write ∧ n = .address) := by
  rw [devEdge_of_ne hmn, devEdgeKnown_hazard, Bool.or_eq_true, forbiddenEdge_iff]

theorem devEdge_hazard_of_forbidden {m n : BusMode} (h : forbiddenEdge m n = true) (hmn : m ≠ n) (d : Dev) (b : UVal Byte) :
    (devEdge d (.known m) b (.known n)).hazard = true := by
  rw [devEdge_of_ne hmn, devEdgeKnown_hazard, h, Bool.or_true]

theorem hazard_devEdge_eq_false {d : Dev} {old new : UVal BusMode} {b : UVal Byte} (h : (devEdge d old b new).hazard = false) :
    d.hazard = false := by
  by_contra hd
  simp [hazard_devEdge d old b new (by simpa using hd)] at h

/-- No unmarked edge joins two different modes that may not be adjacent. -/
theorem false_of_forbidden_unmarked {d : Dev} {old new : UVal BusMode} {m n : BusMode} {b : UVal Byte}
    (h : (devEdge d old b new).hazard = false) (hold : old = .known m) (hnew : new = .known n)
    (hf : forbiddenEdge m n = true ∧ m ≠ n) : False := by
  subst hold hnew
  exact absurd ((devEdge_hazard_of_forbidden hf.1 hf.2 d b).symm.trans h) (by decide)

/-- What an edge that is not forbidden does to the mark. -/
theorem hazard_or_false (d : Dev) : { d with hazard := d.hazard || false } = d := by
  rw [Bool.or_false]

theorem devEdge_from_inactive (d : Dev) (b : UVal Byte) {n : BusMode} (hn : n ≠ .read) :
    devEdge d (.known .inactive) b (.known n) = d := by
  cases n with
  | inactive => rfl
  | read => exact absurd rfl hn
  | write => exact hazard_or_false d
  | address => exact hazard_or_false d

theorem devEdge_address_inactive (d : Dev) (b : UVal Byte) :
    devEdge d (.known .address) b (.known .inactive) = { d with latch := latchOfBus b } :=
  congrArg (fun e : Dev => { e with latch := latchOfBus b }) (hazard_or_false d)

theorem devEdge_write_inactive (d : Dev) (b : UVal Byte) :
    devEdge d (.known .write) b (.known .inactive) = commitData d b :=
  congrArg (commitData · b) (hazard_or_false d)

theorem latchOfBus_of_lt : ∀ v : Byte, v.toNat < 16 → latchOfBus (.known v) = .known (BitVec.ofNat 4 v.toNat) := by
  decide

theorem latchOfBus_of_ge : ∀ v : Byte, 16 ≤ v.toNat → latchOfBus (.known v) = .U := by
  decide

/-- Settles O39: each clause is the one field of the edge it speaks of. -/
theorem observerFollowsItsClauses : Obligations.ObserverFollowsItsClauses := by
  intro d old new b hwf
  refine ⟨?_, ?_⟩
  · rintro (rfl | rfl | rfl)
    · exact devEdge_of_unknown_old d b new
    · exact devEdge_of_unknown_new d old b
    · exact devEdge_of_same d old b
  · rintro m n rfl rfl hmn
    refine ⟨devEdge_hazard_iff hmn d b, fun hm => devEdge_latch_of_not_address d (by simpa using hm) b _, ?_, ?_,
      fun hm => devEdge_regs_of_not_write d (by simpa using hm) b _, ?_, ?_⟩
    · rintro rfl v rfl hv
      rw [devEdge_of_ne hmn, devEdgeKnown_latch, if_pos rfl, latchOfBus_of_lt v hv]
    · rintro rfl hb
      rw [devEdge_of_ne hmn, devEdgeKnown_latch, if_pos rfl]
      obtain rfl | ⟨v, rfl, hv⟩ := hb
      · rfl
      · exact latchOfBus_of_ge v hv
    · rintro rfl hU a
      rw [devEdge_of_ne hmn, devEdgeKnown_regs, if_pos rfl, commitData_regs_of_no_latch hU, memRead_nil]
    · rintro rfl c hc a
      rw [devEdge_of_ne hmn, devEdgeKnown_regs, if_pos rfl, commitData_regs_of_latch hc, memRead_memWrite _ _ _ _ hwf]

/-! ### A mode change -/

/-- Settles O38: the two writes are one edge. -/
theorem modeChangeIsObservedOnce : Obligations.ModeChangeIsObservedOnce := by
  intro m s hm hr hphase hok
  have hexec := exec_infallible (setmode m) s _ 1 hr (start_setmode m s hm) (modeJobs_ne_nil m _) (by simpa using hok)
  rw [hphase, observeAll_modeJobs_phase] at hexec
  exact ⟨_, hexec, rfl, fun _ => rfl⟩

/-! ### A register write whose pin writes all succeed -/

/-- The pin-write list fixed when the block accepts a register write. -/
def acceptedRegJobs (a v : Byte) (s : State) : List PinJob :=
  regJobs a v (controlOrder s 0) (controlOrder s 1) (controlOrder s 2) (controlOrder s 3)

@[simp] theorem acceptedRegJobs_length (a v : Byte) (s : State) : (acceptedRegJobs a v s).length = 24 :=
  regJobs_length a v _ _ _ _

theorem acceptedRegJobs_ne_nil (a v : Byte) (s : State) : acceptedRegJobs a v s ≠ [] :=
  List.ne_nil_of_length_eq_add_one (acceptedRegJobs_length a v s)

/-- What a register write leaves when all its pin writes succeed. -/
structure RegisterWritten (a v : Byte) (s t : State) : Prop where
  ready : Ready t
  params : t.params = s.params
  commands : t.commands = s.commands
  latches : t.latches = modeLatches (busLatches s.latches v) .inactive
  trace : t.trace.length = s.trace.length + 24
  answers : ∀ k, pinAnswer t k = pinAnswer s (24 + k)
  dev : t.dev = observeAll s.params.obsGranularity (acceptedRegJobs a v s) (modeOf s.latches) s.latches s.dev

theorem pinAnswer_spendPins (s : State) (n k : Nat) : pinAnswer (spendPins s n) k = pinAnswer s (n + k) := by
  simp only [pinAnswer, spendPins, List.getElem?_drop, Nat.add_assoc]

theorem exec_wrreg_infallible (a v : Byte) (s : State) (hr : Ready s) (hok : PinsInfallible s 24) :
    ∃ t, exec (.wrreg a v) s = .next t ∧ RegisterWritten a v s t := by
  have hexec := exec_infallible (.wrreg a v) s (acceptedRegJobs a v s) 4 hr rfl (acceptedRegJobs_ne_nil a v s)
    (by simpa using hok)
  obtain ⟨hfault, hidle⟩ := hr
  refine ⟨_, hexec, ⟨?_, ?_⟩, ?_, ?_, latchAll_regJobs a v _ _ _ _ _, ?_, fun k => ?_, rfl⟩
  · simpa [NoFault, spendPins] using hfault
  · simpa [Idle, spendPins] using hidle
  · simp [spendPins]
  · simp [spendPins]
  · simp
  · rw [acceptedRegJobs_length, ← pinAnswer_drawOrders s 4, ← pinAnswer_spendPins]
    exact pinAnswer_congr _ _ rfl rfl k

section RegisterWritten

variable {a v : Byte} {s t : State}

theorem RegisterWritten.initialised (h : RegisterWritten a v s t) : modeOf t.latches = .known .inactive := by
  rw [h.latches, modeOf_modeLatches]

/-- At phase grain a register write is four edges (20_memory.md R42). -/
theorem observeAll_regJobs_phase (a v : Byte) (o1 o2 o3 o4 : ControlOrder) (b : UVal BusMode) (l : Latches) (d : Dev) :
    observeAll .phase (regJobs a v o1 o2 o3 o4) b l d =
      devEdge (devEdge (devEdge (devEdge d b (busOf l) (.known .address))
        (.known .address) (.known (addressByte a)) (.known .inactive))
        (.known .inactive) (.known (addressByte a)) (.known .write))
        (.known .write) (.known v) (.known .inactive) := by
  simp only [regJobs, observeAll_append, observeAll_modeJobs_phase, observeAll_busJobs, beforeAll_append, beforeAll_modeJobs,
    beforeAll_busJobs, latchAll_append, latchAll_modeJobs, latchAll_busJobs, busOf_modeLatches, busOf_busLatches]

/-- From INACTIVE at phase grain a register write is `MemWrite` (20_memory.md R42). -/
theorem RegisterWritten.dev_eq_devStore (h : RegisterWritten a v s t) (hinit : Initialised s)
    (hphase : s.params.obsGranularity = .phase) : t.dev = devStore s.dev (clampAddr a) v := by
  have hmode : modeOf s.latches = .known .inactive := hinit
  rw [h.dev, hphase, hmode, acceptedRegJobs, observeAll_regJobs_phase,
    devEdge_from_inactive _ _ (by decide), devEdge_address_inactive, devEdge_from_inactive _ _ (by decide),
    devEdge_write_inactive, latchOfBus_addressByte]
  rfl

end RegisterWritten

/-- Settles O32: the store of `MemWrite`, read back. -/
theorem writeRegisterStoresOneByte : Obligations.WriteRegisterStoresOneByte := by
  intro a v s hr hinit _ hphase hok
  obtain ⟨t, hexec, h⟩ := exec_wrreg_infallible a v s hr hok
  have hdev := h.dev_eq_devStore hinit hphase
  refine ⟨t, hexec, h.initialised, by rw [h.latches, busOf_modeLatches, busOf_busLatches], by rw [hdev]; rfl,
    by rw [hdev]; rfl, fun b => ?_⟩
  rw [hdev, ← clampAddr_toNat]
  exact memRead_memInsert s.dev.regs (clampAddr a).toNat v b

/-! ### The register writes of a pseudo-command -/

theorem run_succ {s t : State} (n : Nat) (h : step s = .next t) : Host.Core.run core (n + 1) s = Host.Core.run core n t := by
  simp only [Host.Core.run, core, h]

/-- A presented register write is the next step. -/
theorem step_writeCommand (w : RegWrite) {s : State} {rest : List HostCommand} (hr : Ready s)
    (hcmd : s.commands = writeCommand w :: rest) : step s = exec (.wrreg w.addr w.value) { s with commands := rest } :=
  stepRunsDecodedCommand s _ rest _ hr hcmd (decode_encode _)

/-- What a list of register writes leaves of a block that presents them and then `rest`. -/
structure AllWritten (ws : List RegWrite) (rest : List HostCommand) (s t : State) : Prop where
  ready : Ready t
  initialised : Initialised t
  commands : t.commands = rest
  regs : t.dev.regs = ws.foldl (fun m r => memWrite m (clampAddr r.addr) (.known r.value)) s.dev.regs
  hazard : t.dev.hazard = s.dev.hazard
  trace : t.trace.length = s.trace.length + 24 * ws.length

/-- Presented register writes run one after another. -/
theorem run_writeCommands (rest : List HostCommand) (ws : List RegWrite) : ∀ s : State, Ready s → Initialised s →
    s.params.obsGranularity = .phase → s.commands = ws.map writeCommand ++ rest → PinsInfallible s (24 * ws.length) →
    ∃ t, Host.Core.run core ws.length s = .next t ∧ AllWritten ws rest s t := by
  induction ws with
  | nil => exact fun s hr hinit _ hcmd _ => ⟨s, rfl, hr, hinit, hcmd, rfl, rfl, rfl⟩
  | cons w ws ih =>
    intro s hr hinit hphase hcmd hok
    rw [List.length_cons] at hok
    obtain ⟨u, hexec, h⟩ := exec_wrreg_infallible w.addr w.value { s with commands := ws.map writeCommand ++ rest } hr
      fun k hk => hok k (by omega)
    have hdev : u.dev = devStore s.dev (clampAddr w.addr) w.value := h.dev_eq_devStore hinit hphase
    obtain ⟨t, hrun, ht⟩ := ih u h.ready h.initialised ((congrArg _ h.params).trans hphase) h.commands fun k hk =>
      (h.answers k).trans (hok (24 + k) (by omega))
    refine ⟨t, (run_succ _ ((step_writeCommand w hr hcmd).trans hexec)).trans hrun, ht.ready, ht.initialised, ht.commands,
      by rw [ht.regs, hdev]; rfl, by rw [ht.hazard, hdev]; rfl, ?_⟩
    have htrace : u.trace.length = s.trace.length + 24 := h.trace
    rw [ht.trace, htrace, List.length_cons]
    omega

/-- Settles O52: the expansion, then its register writes one after another. -/
theorem pseudoCommandReachesTheDevice : Obligations.PseudoCommandReachesTheDevice := by
  intro s p rest ws hr hinit _ hphase hcmd hexpand hok
  have hstep : step s = .next { s with commands := ws.map writeCommand ++ rest } := by
    rw [step, portStep_ready exec hr hcmd]
    simp only [takeCommand, hexpand]
  obtain ⟨t, hrun, h⟩ := run_writeCommands rest ws { s with commands := ws.map writeCommand ++ rest } hr hinit hphase rfl hok
  exact ⟨t, (run_succ ws.length hstep).trans hrun, h.ready, h.initialised, h.commands, h.regs, h.hazard, h.trace⟩

/-! ### The mode between the two control-line writes -/

/-- The mode the control lines show between the two writes of a change to `m`. -/
def midMode (l : Latches) (m : BusMode) : ControlOrder → UVal BusMode
  | .bdirFirst => modeOf { l with bdir := .known (levels m).1 }
  | .bc1First => modeOf { l with bc1 := .known (levels m).2 }

theorem levels_of_modeOfLevels {b c : Level} {m : BusMode} (h : modeOfLevels b c = .known m) : (b, c) = levels m := by
  cases b <;> cases c <;> cases h <;> rfl

/-- The control lines show a mode exactly when they hold its levels (30_encoding.md R50). -/
theorem modeOf_eq_known_iff (l : Latches) (m : BusMode) :
    modeOf l = .known m ↔ l.bdir = .known (levels m).1 ∧ l.bc1 = .known (levels m).2 := by
  refine ⟨fun h => ?_, fun ⟨hb, hc⟩ => modeOf_known l m hb hc⟩
  unfold modeOf at h
  split at h
  · next b c hb hc =>
    rw [← levels_of_modeOfLevels h]
    exact ⟨hb, hc⟩
  · cases h

/-- The change to INACTIVE from ADDRESS, where both lines change, shows READ or WRITE in between (70_reset_and_hazards.md R138),
and the edge into either is marked. -/
theorem devEdge_hazard_leaving_address {l : Latches} (hl : modeOf l = .known .address) (o : ControlOrder) (d : Dev)
    (b : UVal Byte) : (devEdge d (modeOf l) b (midMode l .inactive o)).hazard = true := by
  obtain ⟨hbdir, hbc1⟩ := (modeOf_eq_known_iff l .address).1 hl
  rw [hl]
  cases o with
  | bdirFirst =>
    rw [show midMode l .inactive .bdirFirst = .known .read from modeOf_known _ .read rfl hbc1]
    exact devEdge_hazard_of_forbidden rfl (by decide) d b
  | bc1First =>
    rw [show midMode l .inactive .bc1First = .known .write from modeOf_known _ .write hbdir rfl]
    exact devEdge_hazard_of_forbidden rfl (by decide) d b

theorem bdir_high {m : BusMode} (h : (levels m).1 = .H) : m = .write ∨ m = .address := by
  revert h; cases m <;> decide

theorem bc1_high {m : BusMode} (h : (levels m).2 = .H) : m = .read ∨ m = .address := by
  revert h; cases m <;> decide

/-- The mode in between is WRITE only on the way to WRITE or ADDRESS, or where BDIR was high already. -/
theorem cases_of_midMode_write {l : Latches} {m : BusMode} {o : ControlOrder} (h : midMode l m o = .known .write) :
    m = .write ∨ m = .address ∨ modeOf l = .U ∨ modeOf l = .known .write ∨ modeOf l = .known .address := by
  cases o with
  | bdirFirst =>
    obtain hm | hm := bdir_high (UVal.known.inj ((modeOf_eq_known_iff _ .write).1 h).1)
    · exact .inl hm
    · exact .inr (.inl hm)
  | bc1First =>
    have hb : l.bdir = .known .H := ((modeOf_eq_known_iff _ .write).1 h).1
    right; right
    cases hc : l.bc1 with
    | U => exact .inl (by rw [modeOf, hb, hc])
    | known c =>
      cases c with
      | L => exact .inr (.inl (modeOf_known l .write hb hc))
      | H => exact .inr (.inr (modeOf_known l .address hb hc))

/-- The mode in between is ADDRESS only on the way to ADDRESS or WRITE, READ being driven by no command. -/
theorem cases_of_midMode_address {l : Latches} {m : BusMode} {o : ControlOrder} (hm : m ≠ .read)
    (h : midMode l m o = .known .address) : m = .address ∨ m = .write := by
  cases o with
  | bdirFirst => exact (bdir_high (UVal.known.inj ((modeOf_eq_known_iff _ .address).1 h).1)).symm
  | bc1First =>
    exact .inl ((bc1_high (UVal.known.inj ((modeOf_eq_known_iff _ .address).1 h).2)).resolve_left hm)

/-- On the way from WRITE to ADDRESS there is no mode but these two. -/
theorem midMode_write_address {l : Latches} (hl : modeOf l = .known .write) (o : ControlOrder) :
    midMode l .address o = .known .write ∨ midMode l .address o = .known .address := by
  obtain ⟨hbdir, hbc1⟩ := (modeOf_eq_known_iff l .write).1 hl
  cases o with
  | bdirFirst => exact .inl (modeOf_known _ .write rfl hbc1)
  | bc1First => exact .inr (modeOf_known _ .address hbdir rfl)

theorem hazard_observeAll (g : Granularity) (jobs : List PinJob) : ∀ (b : UVal BusMode) (l : Latches) (d : Dev),
    d.hazard = true → (observeAll g jobs b l d).hazard = true := by
  induction jobs with
  | nil => exact fun _ _ _ h => h
  | cons j rest ih => exact fun _ _ _ h => ih _ _ _ (hazard_observe _ _ _ _ _ _ h)

/-- At pin grain a mode change is an edge into the mode in between and one out of it. -/
theorem observeAll_modeJobs_midMode (m : BusMode) (o : ControlOrder) (b : UVal BusMode) (l : Latches) (d : Dev) :
    observeAll .pin (modeJobs m o) b l d =
      devEdge (devEdge d (modeOf l) (busOf l) (midMode l m o)) (midMode l m o) (busOf l) (.known m) := by
  rw [observeAll_modeJobs_pin]
  cases o <;> rfl

/-- At pin grain the change from ADDRESS to INACTIVE is marked. -/
theorem hazard_observeAll_leaving_address {l : Latches} (hl : modeOf l = .known .address) (o : ControlOrder)
    (b : UVal BusMode) (d : Dev) : (observeAll .pin (modeJobs .inactive o) b l d).hazard = true := by
  rw [observeAll_modeJobs_midMode]
  exact hazard_devEdge _ _ _ _ (devEdge_hazard_leaving_address hl o d _)

/-- The address phase of a register write leaves the control lines in ADDRESS. -/
theorem modeOf_latchAll_address_phase (a : Byte) (o : ControlOrder) (l : Latches) :
    modeOf (latchAll (modeJobs .address o ++ busJobs (addressByte a)) l) = .known .address := by
  rw [latchAll_append, latchAll_modeJobs, latchAll_busJobs, modeOf_busLatches, modeOf_modeLatches]

/-- The pin writes of a register write: the address phase, the change that leaves ADDRESS, the data phase. -/
theorem regJobs_eq_append (a v : Byte) (o1 o2 o3 o4 : ControlOrder) :
    regJobs a v o1 o2 o3 o4 = (modeJobs .address o1 ++ busJobs (addressByte a)) ++ (modeJobs .inactive o2
      ++ (modeJobs .write o3 ++ busJobs v ++ modeJobs .inactive o4)) := by
  simp only [regJobs, List.append_assoc]

/-- Settles O35: the change from ADDRESS to INACTIVE sets the mark, and no later write clears it. -/
theorem pinGrainMarksEveryRegisterWrite : Obligations.PinGrainMarksEveryRegisterWrite := by
  intro a v s hr hpin hok
  obtain ⟨t, hexec, h⟩ := exec_wrreg_infallible a v s hr hok
  refine ⟨t, hexec, ?_⟩
  rw [h.dev, hpin, acceptedRegJobs, regJobs_eq_append, observeAll_append, observeAll_append]
  exact hazard_observeAll _ _ _ _ _ (hazard_observeAll_leaving_address (modeOf_latchAll_address_phase a _ _) _ _ _)

/-- Settles O37: at phase grain the first edge is WRITE to ADDRESS; at pin grain every register write is marked. -/
theorem registerWriteFromWriteModeMarksHazard : Obligations.RegisterWriteFromWriteModeMarksHazard := by
  intro a v s hr hwrite hok
  obtain ⟨t, hexec, h⟩ := exec_wrreg_infallible a v s hr hok
  refine ⟨t, hexec, h.ready.1, h.initialised, ?_⟩
  cases hg : s.params.obsGranularity with
  | phase =>
    rw [h.dev, hg, hwrite, acceptedRegJobs, observeAll_regJobs_phase]
    refine hazard_devEdge _ _ _ _ (hazard_devEdge _ _ _ _ (hazard_devEdge _ _ _ _ ?_))
    exact devEdge_hazard_of_forbidden rfl (by decide) s.dev _
  | pin =>
    obtain ⟨t', hexec', hhazard⟩ := pinGrainMarksEveryRegisterWrite a v s hr hg hok
    obtain rfl : t = t' := Host.Outcome.next.inj (hexec.symm.trans hexec')
    exact hhazard

/-! ### The device image at every point of a list of pin writes -/

/-- Wherever the list is cut, or not at all, the device image it leaves satisfies `P`. -/
def AtEveryCut (g : Granularity) (P : Dev → Prop) (jobs : List PinJob) (b : UVal BusMode) (l : Latches) (d : Dev) : Prop :=
  ∀ n, P (observeAll g (jobs.take n) b l d)

section AtEveryCut

variable {g : Granularity} {P : Dev → Prop} {b : UVal BusMode} {l : Latches} {d : Dev}

theorem AtEveryCut.append {xs ys : List PinJob} (hx : AtEveryCut g P xs b l d)
    (hy : AtEveryCut g P ys (beforeAll xs b l) (latchAll xs l) (observeAll g xs b l d)) : AtEveryCut g P (xs ++ ys) b l d := by
  intro n
  obtain hn | hn := Nat.le_total n xs.length
  · rw [List.take_append_of_le_length hn]
    exact hx n
  · rw [List.take_append, List.take_of_length_le hn, observeAll_append]
    exact hy _

/-- What a list of pin writes leaves, complete or cut, is what one of its cuts leaves. -/
theorem AtEveryCut.complete_load {jobs : List PinJob} {s : State} (hne : jobs ≠ [])
    (h : AtEveryCut s.params.obsGranularity P jobs (modeOf s.latches) s.latches s.dev) : P (complete (load jobs s)).dev := by
  obtain ⟨n, -, hdev, -⟩ := pinSteps_outcome jobs 0 (modeOf s.latches) (load jobs s) hne rfl
  exact (congrArg P hdev).mpr (h n)

theorem atEveryCut_busJobs (v : Byte) (h : P d) : AtEveryCut g P (busJobs v) b l d := by
  intro n
  match n with
  | 0 | 1 | 2 | 3 | 4 | 5 | 6 | 7 => exact h
  | n + 8 => rwa [List.take_of_length_le (by simp), observeAll_busJobs]

theorem atEveryCut_modeJobs_phase (m : BusMode) (o : ControlOrder) (h0 : P d) (h : P (devEdge d b (busOf l) (.known m))) :
    AtEveryCut .phase P (modeJobs m o) b l d := by
  intro n
  match n with
  | 0 => exact h0
  | 1 => cases o <;> exact h0
  | n + 2 => rwa [List.take_of_length_le (by simp), observeAll_modeJobs_phase]

theorem atEveryCut_modeJobs_pin (m : BusMode) (o : ControlOrder) (h0 : P d)
    (h1 : P (devEdge d (modeOf l) (busOf l) (midMode l m o)))
    (h2 : P (devEdge (devEdge d (modeOf l) (busOf l) (midMode l m o)) (midMode l m o) (busOf l) (.known m))) :
    AtEveryCut .pin P (modeJobs m o) b l d := by
  intro n
  match n with
  | 0 => exact h0
  | 1 => cases o <;> exact h1
  | n + 2 => rwa [List.take_of_length_le (by simp), observeAll_modeJobs_midMode]

end AtEveryCut

/-! ### What a mode change leaves of the device image -/

/-- What a change from the mode `old` leaves of the image `d` in the image `d'`. -/
structure ModeChangeKeeps (g : Granularity) (old : UVal BusMode) (d d' : Dev) : Prop where
  regs : g = .phase ∨ old ≠ .U → old ≠ .known .write → d'.regs = d.regs
  latch : old ≠ .known .address → d'.latch = d.latch
  others : ∀ c, d.latch = .known c → ∀ r, r ≠ c.toNat → memRead d'.regs r = memRead d.regs r

section ModeChangeKeeps

variable {g : Granularity} {d : Dev}

theorem ModeChangeKeeps.refl (old : UVal BusMode) : ModeChangeKeeps g old d d :=
  ⟨fun _ _ => rfl, fun _ => rfl, fun _ _ _ _ => rfl⟩

theorem modeChangeKeeps_devEdge (old new : UVal BusMode) (b : UVal Byte) : ModeChangeKeeps g old d (devEdge d old b new) where
  regs _ hold := devEdge_regs_of_not_write d hold b new
  latch hold := devEdge_latch_of_not_address d hold b new
  others _ hc _ hr := memRead_devEdge_other hc old b new hr

/-- Two unmarked edges, into the mode in between and out of it, keep what one keeps: the second stores or latches nothing that
the first may not. -/
theorem modeChangeKeeps_midMode {l : Latches} {m : BusMode} {o : ControlOrder} {b : UVal Byte} (hm : m ≠ .read)
    (hz : (devEdge (devEdge d (modeOf l) b (midMode l m o)) (midMode l m o) b (.known m)).hazard = false) :
    ModeChangeKeeps .pin (modeOf l) d (devEdge (devEdge d (modeOf l) b (midMode l m o)) (midMode l m o) b (.known m)) := by
  have first := modeChangeKeeps_devEdge (g := .pin) (d := d) (modeOf l) (midMode l m o) b
  have hz1 := hazard_devEdge_eq_false hz
  refine ⟨fun hU hwrite => ?_, fun haddress => ?_, fun c hc r hr => ?_⟩
  · rw [← first.regs hU hwrite]
    by_cases hmid : midMode l m o = .known .write
    · obtain rfl | rfl | h | h | h := cases_of_midMode_write hmid
      · rw [hmid, devEdge_of_same]
      · exact (false_of_forbidden_unmarked hz hmid rfl (by decide)).elim
      · exact absurd h (hU.resolve_left (by decide))
      · exact absurd h hwrite
      · exact (false_of_forbidden_unmarked hz1 h hmid (by decide)).elim
    · exact devEdge_regs_of_not_write _ hmid b _
  · rw [← first.latch haddress]
    by_cases hmid : midMode l m o = .known .address
    · obtain rfl | rfl := cases_of_midMode_address hm hmid
      · rw [hmid, devEdge_of_same]
      · exact (false_of_forbidden_unmarked hz hmid rfl (by decide)).elim
    · exact devEdge_latch_of_not_address _ hmid b _
  · rw [← first.others c hc r hr]
    by_cases hmid : midMode l m o = .known .write
    · have hold : modeOf l ≠ .known .address := fun h => false_of_forbidden_unmarked hz1 h hmid (by decide)
      exact memRead_devEdge_other ((first.latch hold).trans hc) _ b _ hr
    · rw [devEdge_regs_of_not_write _ hmid b]

/-- A change to a driven mode, complete or cut, that ends unmarked. -/
theorem modeChangeKeeps_startSetMode {m : BusMode} (hm : m ≠ .read) (s : State)
    (hz : (complete (startSetMode m s)).dev.hazard = false) :
    ModeChangeKeeps s.params.obsGranularity (modeOf s.latches) s.dev (complete (startSetMode m s)).dev := by
  refine AtEveryCut.complete_load (P := fun d' => d'.hazard = false →
    ModeChangeKeeps s.params.obsGranularity (modeOf s.latches) s.dev d') (modeJobs_ne_nil m (controlOrder s 0)) ?_ hz
  rw [drawOrders_params, drawOrders_latches, drawOrders_dev]
  cases s.params.obsGranularity with
  | phase =>
    exact atEveryCut_modeJobs_phase m _ (fun _ => .refl _) fun _ => modeChangeKeeps_devEdge _ _ _
  | pin =>
    exact atEveryCut_modeJobs_pin m _ (fun _ => .refl _) (fun _ => modeChangeKeeps_devEdge _ _ _) (modeChangeKeeps_midMode hm)

end ModeChangeKeeps

/-! ### What a register write leaves of the device image -/

/-- If no hazard is marked in `d'`, it holds what `d` holds at every address but `r`. -/
def KeepsOthers (d : Dev) (r : Nat) (d' : Dev) : Prop :=
  d'.hazard = false → ∀ b, b ≠ r → memRead d'.regs b = memRead d.regs b

section KeepsOthers

variable {d d' : Dev} {r : Nat}

theorem keepsOthers_of_hazard (h : d'.hazard = true) : KeepsOthers d r d' := fun hz =>
  absurd (h.symm.trans hz) (by decide)

/-- An edge that leaves WRITE for ADDRESS only, which is marked, stores nothing. -/
theorem KeepsOthers.devEdge_of_not_stored (h : KeepsOthers d r d') {old new : UVal BusMode}
    (hnew : old = .known .write → new = .known .write ∨ new = .known .address) (b : UVal Byte) :
    KeepsOthers d r (devEdge d' old b new) := by
  intro hz
  by_cases hold : old = .known .write
  · obtain hw | ha := hnew hold
    · rw [hold, hw, devEdge_of_same]
      exact h (hazard_devEdge_eq_false hz)
    · exact (false_of_forbidden_unmarked hz hold ha (by decide)).elim
  · rw [devEdge_regs_of_not_write d' hold b new]
    exact h (hazard_devEdge_eq_false hz)

theorem KeepsOthers.devEdge_of_latch (h : KeepsOthers d r d') {c : BitVec 4} (hc : d'.latch = .known c) (hr : c.toNat = r)
    (old new : UVal BusMode) (b : UVal Byte) : KeepsOthers d r (devEdge d' old b new) := fun hz i hi =>
  (memRead_devEdge_other hc old b new (hr ▸ hi)).trans (h (hazard_devEdge_eq_false hz) i hi)

theorem atEveryCut_of_hazard {g : Granularity} (jobs : List PinJob) (b : UVal BusMode) (l : Latches) (h : d'.hazard = true) :
    AtEveryCut g (KeepsOthers d r) jobs b l d' := fun n =>
  keepsOthers_of_hazard (hazard_observeAll g (jobs.take n) b l d' h)

/-- At phase grain the one edge that leaves WRITE has the clamped address latched. -/
theorem atEveryCut_regJobs_phase (a v : Byte) (o1 o2 o3 o4 : ControlOrder) (b : UVal BusMode) (l : Latches) :
    AtEveryCut .phase (KeepsOthers d (min a.toNat 15)) (regJobs a v o1 o2 o3 o4) b l d := by
  have h0 : KeepsOthers d (min a.toNat 15) d := fun _ _ _ => rfl
  have h1 := h0.devEdge_of_not_stored (old := b) (new := .known .address) (fun _ => .inr rfl) (busOf l)
  have h2 := h1.devEdge_of_not_stored (old := .known .address) (new := .known .inactive) (by simp) (.known (addressByte a))
  have h3 := h2.devEdge_of_not_stored (old := .known .inactive) (new := .known .write) (by simp) (.known (addressByte a))
  have h4 := h3.devEdge_of_latch (c := clampAddr a)
    (by rw [devEdge_from_inactive _ _ (by decide), devEdge_address_inactive, latchOfBus_addressByte]) (clampAddr_toNat a)
    (.known .write) (.known .inactive) (.known v)
  refine (((((atEveryCut_modeJobs_phase _ _ h0 h1).append (atEveryCut_busJobs _ ?_)).append
    (atEveryCut_modeJobs_phase _ _ ?_ ?_)).append (atEveryCut_modeJobs_phase _ _ ?_ ?_)).append
    (atEveryCut_busJobs _ ?_)).append (atEveryCut_modeJobs_phase _ _ ?_ ?_)
  all_goals
    simp only [observeAll_append, observeAll_modeJobs_phase, observeAll_busJobs, beforeAll_append, beforeAll_modeJobs,
      beforeAll_busJobs, latchAll_append, latchAll_modeJobs, latchAll_busJobs, busOf_modeLatches, busOf_busLatches]
    assumption

/-- At pin grain everything from the change that leaves ADDRESS on is marked. -/
theorem atEveryCut_leaving_address {l : Latches} (hl : modeOf l = .known .address) (o : ControlOrder) (rest : List PinJob)
    (b : UVal BusMode) (h : KeepsOthers d r d') :
    AtEveryCut .pin (KeepsOthers d r) (modeJobs .inactive o ++ rest) b l d' := by
  have hmark := devEdge_hazard_leaving_address hl o d' (busOf l)
  exact (atEveryCut_modeJobs_pin _ _ h (keepsOthers_of_hazard hmark)
    (keepsOthers_of_hazard (hazard_devEdge _ _ _ _ hmark))).append
      (atEveryCut_of_hazard _ _ _ (hazard_observeAll_leaving_address hl o b d'))

/-- At pin grain a register write stores nothing before it is marked. -/
theorem atEveryCut_regJobs_pin (a v : Byte) (o1 o2 o3 o4 : ControlOrder) (b : UVal BusMode) (l : Latches) :
    AtEveryCut .pin (KeepsOthers d r) (regJobs a v o1 o2 o3 o4) b l d := by
  have h0 : KeepsOthers d r d := fun _ _ _ => rfl
  have h1 := h0.devEdge_of_not_stored (old := modeOf l) (new := midMode l .address o1)
    (fun hl => midMode_write_address hl o1) (busOf l)
  have h2 := h1.devEdge_of_not_stored (old := midMode l .address o1) (new := .known .address) (fun _ => .inr rfl) (busOf l)
  rw [← observeAll_modeJobs_midMode .address o1 b] at h2
  rw [regJobs_eq_append]
  refine ((atEveryCut_modeJobs_pin _ _ h0 h1 ?_).append (atEveryCut_busJobs _ h2)).append
    (atEveryCut_leaving_address (modeOf_latchAll_address_phase a o1 l) o2 _ _ ?_)
  · rwa [observeAll_modeJobs_midMode] at h2
  · rwa [observeAll_append, observeAll_busJobs]

/-- A register write, complete or cut. -/
theorem keepsOthers_startWrreg (a v : Byte) (s : State) :
    KeepsOthers s.dev (min a.toNat 15) (complete (startWrreg a v s)).dev := by
  refine AtEveryCut.complete_load (acceptedRegJobs_ne_nil a v s) ?_
  rw [drawOrders_params, drawOrders_latches, drawOrders_dev]
  cases s.params.obsGranularity with
  | phase => exact atEveryCut_regJobs_phase a v _ _ _ _ _ _
  | pin => exact atEveryCut_regJobs_pin a v _ _ _ _ _ _

end KeepsOthers

/-! ### What each command leaves of the device image -/

theorem dev_startWrbus (v : Byte) (s : State) : (complete (startWrbus v s)).dev = s.dev :=
  AtEveryCut.complete_load (P := (· = s.dev)) (List.cons_ne_nil _ _) (atEveryCut_busJobs v rfl)

/-- A write of the reset line resets the device, or does nothing. -/
theorem dev_startSetrst (x : Level) (s : State) :
    (complete (startSetrst x s)).dev = s.dev ∨ x = .L ∧ (complete (startSetrst x s)).dev = devReset s.dev := by
  by_cases hline : s.params.hasResetLine = true
  · rw [startSetrst_of_line hline]
    refine AtEveryCut.complete_load (P := fun d => d = s.dev ∨ x = .L ∧ d = devReset s.dev) (List.cons_ne_nil _ _) fun n => ?_
    match n, x with
    | 0, _ => exact .inl rfl
    | n + 1, .H => exact .inl (by rw [List.take_of_length_le (by simp)]; rfl)
    | n + 1, .L => exact .inr ⟨rfl, by rw [List.take_of_length_le (by simp)]; rfl⟩
  · rw [startSetrst_of_no_line hline]
    exact .inl rfl

/-- Settles O43, command by command: a mode change by its edges, a register write by the edges of its four mode changes. -/
theorem deviceImageFrame : Obligations.DeviceImageFrame := by
  intro i s t h
  obtain ⟨-, -, rfl⟩ := (exec_eq_next i s t).1 h
  refine ⟨?_, fun hz => ⟨?_, ?_, ?_, ?_⟩⟩
  · rintro (rfl | ⟨a, rfl⟩ | ⟨v, rfl⟩ | ⟨x, rfl⟩)
    · rfl
    · rfl
    · exact congrArg Dev.hazard (dev_startWrbus v s)
    · obtain hx | ⟨-, hx⟩ := dev_startSetrst x s
      · exact congrArg Dev.hazard hx
      · exact (congrArg Dev.hazard hx).trans rfl
  · have hextends : Extends s (complete (start i s)) := complete_keeps (Extends s) .pinStep _ ((Extends.refl s).start i)
    by_contra hs
    exact absurd ((hextends.hazard (by simpa [NoHazard] using hs)).symm.trans hz) (by decide)
  · rintro (rfl | ⟨a, rfl⟩ | ⟨v, rfl⟩ | rfl)
    · rfl
    · rfl
    · exact dev_startWrbus v s
    · exact (dev_startSetrst .H s).resolve_right (by simp)
  · intro hi
    have hkeeps : ModeChangeKeeps s.params.obsGranularity (modeOf s.latches) s.dev (complete (start i s)).dev := by
      obtain rfl | rfl | rfl := hi <;> exact modeChangeKeeps_startSetMode (by decide) s hz
    exact ⟨hkeeps.regs, hkeeps.latch, hkeeps.others⟩
  · rintro a v rfl
    exact keepsOthers_startWrreg a v s hz

end Sys2Proof.Machine

/-! The statements of 30_encoding.md: the encoder and the decoder are inverse to each other, and the decoder is the opcode table. -/

namespace Sys2Proof

open Machine (decode_encode)

/-! ### Each format decodes only the fields that its encoder writes -/

theorem encode_of_decodeM {a d : Byte} {i : Instr} (h : decodeM a d = .ok i) : encode i = ofFields 0x00 a d := by
  unfold decodeM at h
  split_ifs at h with ha h0 h1 h2 h3
  all_goals cases h; rw [not_not.1 ha]
  · rw [h0]; rfl
  · rw [h1]; rfl
  · rw [h2]; rfl
  · rw [h3]; rfl

theorem encode_of_decodeB {a d : Byte} {i : Instr} (h : decodeB a d = .ok i) : encode i = ofFields 0x01 a d := by
  unfold decodeB at h
  split_ifs at h with ha
  cases h
  rw [not_not.1 ha]; rfl

theorem encode_of_decodeR {a d : Byte} {i : Instr} (h : decodeR a d = .ok i) : encode i = ofFields 0x02 a d := by
  cases h
  rfl

theorem encode_of_decodeA {a d : Byte} {i : Instr} (h : decodeA a d = .ok i) : encode i = ofFields 0x03 a d := by
  unfold decodeA at h
  split_ifs at h with hd
  cases h
  rw [not_not.1 hd]; rfl

theorem encode_of_decodeL {a d : Byte} {i : Instr} (h : decodeL a d = .ok i) : encode i = ofFields 0x04 a d := by
  unfold decodeL at h
  split_ifs at h with ha h0 h1
  all_goals cases h; rw [not_not.1 ha]
  · rw [h0]; rfl
  · rw [h1]; rfl

/-! ### The decoder and the encoder -/

/-- Settles O1. -/
theorem decodeInvertsEncode : Obligations.DecodeInvertsEncode := decode_encode

/-- Settles O2: the opcode selects the format, and each format's decoder is inverted by the encoder. -/
theorem encodeInvertsDecode : Obligations.EncodeInvertsDecode := by
  intro w i h
  rw [← ofFields_fields w]
  unfold decode at h
  split_ifs at h with h0 h1 h2 h3 h4
  · rw [h0]; exact encode_of_decodeM h
  · rw [h1]; exact encode_of_decodeB h
  · rw [h2]; exact encode_of_decodeR h
  · rw [h3]; exact encode_of_decodeA h
  · rw [h4]; exact encode_of_decodeL h

/-- Settles O5: each legal word is the word that the encoder gives its command; the illegal ones are evaluated. -/
theorem sampleWordsDecode : Obligations.SampleWordsDecode := by
  refine ⟨decode_encode .setmodeInactive, decode_encode .setmodeRead, decode_encode .setmodeWrite,
    decode_encode .setmodeAddress, decode_encode (.wrbus 0xFF), decode_encode (.wrreg 255 0x55),
    decode_encode (.rdreg 15), decode_encode (.setrst .H), ?_⟩
  decide

/-! ### The opcode table -/

theorem opcodeRow_mem (i : Instr) : opcodeRow i ∈ opcodeRows := by
  cases i <;> simp [opcodeRows, opcodeRow]

/-- Every command's word matches the command's row. -/
theorem opcodeRow_accepts_encode (i : Instr) : (opcodeRow i).accepts (encode i) = true := by
  cases i with
  | setmodeInactive => exact Laws.RowFits.setmodeInactive
  | setmodeRead => exact Laws.RowFits.setmodeRead
  | setmodeWrite => exact Laws.RowFits.setmodeWrite
  | setmodeAddress => exact Laws.RowFits.setmodeAddress
  | wrbus v => exact Laws.RowFits.wrbus v
  | wrreg a v => exact Laws.RowFits.wrreg a v
  | rdreg a => exact Laws.RowFits.rdreg a
  | setrst l => exact Laws.RowFits.setrst l

/-- Matching a row is matching it field by field. -/
theorem fields_of_accepts {r : OpcodeRow} {w : Word} (h : r.accepts w = true) :
    opField w &&& opField r.mask = opField r.pattern ∧ aField w &&& aField r.mask = aField r.pattern
      ∧ dField w &&& dField r.mask = dField r.pattern := by
  have hw : w &&& r.mask = r.pattern := beq_iff_eq.1 h
  rw [← ofFields_fields w, ← ofFields_fields r.mask, ofFields_and] at hw
  rw [← hw]
  simp

/-- A `d` field whose upper seven bits are 0 is that of a level. -/
theorem exists_levelField (d : Byte) (hd : d &&& 0xFE = 0) : ∃ l, levelField l = d := by
  have hbit : ∀ d : Byte, d &&& 0xFE = 0 → levelField .L = d ∨ levelField .H = d := by decide
  obtain h | h := hbit d hd
  · exact ⟨.L, h⟩
  · exact ⟨.H, h⟩

theorem field_eq_of_full_mask {x m p : Byte} (h : x &&& m = p) (hm : m = 0xFF) : p = x := by
  rw [← h, hm]
  exact BitVec.and_allOnes

/-- A row without an operand is matched by its pattern only. -/
theorem pattern_eq_of_full_mask {r : OpcodeRow} {w : Word} (h : r.accepts w = true) (hm : r.mask = 0xFFFFFF) :
    r.pattern = w := by
  have hw : w &&& r.mask = r.pattern := beq_iff_eq.1 h
  rw [← hw, hm]
  exact BitVec.and_allOnes

/-- A word that matches a row is the word of a command of that row: the operands are the fields that the mask leaves free. -/
theorem exists_encode_of_accepts {r : OpcodeRow} {w : Word} (hr : r ∈ opcodeRows) (h : r.accepts w = true) :
    ∃ i, r = opcodeRow i ∧ encode i = w := by
  obtain ⟨hop, ha, hd⟩ := fields_of_accepts h
  have hw : ofFields (opField w) (aField w) (dField w) = w := ofFields_fields w
  simp only [opcodeRows, List.mem_cons, List.not_mem_nil, or_false] at hr
  obtain rfl | rfl | rfl | rfl | rfl | rfl | rfl | rfl := hr
  · exact ⟨.setmodeInactive, rfl, pattern_eq_of_full_mask h rfl⟩
  · exact ⟨.setmodeRead, rfl, pattern_eq_of_full_mask h rfl⟩
  · exact ⟨.setmodeWrite, rfl, pattern_eq_of_full_mask h rfl⟩
  · exact ⟨.setmodeAddress, rfl, pattern_eq_of_full_mask h rfl⟩
  · rw [← field_eq_of_full_mask hop rfl, ← field_eq_of_full_mask ha rfl] at hw
    exact ⟨.wrbus (dField w), rfl, hw⟩
  · rw [← field_eq_of_full_mask hop rfl] at hw
    exact ⟨.wrreg (aField w) (dField w), rfl, hw⟩
  · rw [← field_eq_of_full_mask hop rfl, ← field_eq_of_full_mask hd rfl] at hw
    exact ⟨.rdreg (aField w), rfl, hw⟩
  · obtain ⟨l, hl⟩ := exists_levelField (dField w) hd
    rw [← field_eq_of_full_mask hop rfl, ← field_eq_of_full_mask ha rfl, ← hl] at hw
    exact ⟨.setrst l, rfl, hw⟩

/-- A word matches a row of the table exactly when it decodes to a command of that row. -/
theorem accepts_iff_decode {r : OpcodeRow} (hr : r ∈ opcodeRows) (w : Word) :
    r.accepts w = true ↔ ∃ i, r = opcodeRow i ∧ decode w = .ok i := by
  constructor
  · intro h
    obtain ⟨i, hi, rfl⟩ := exists_encode_of_accepts hr h
    exact ⟨i, hi, decode_encode i⟩
  · rintro ⟨i, rfl, hw⟩
    rw [← encodeInvertsDecode w i hw]
    exact opcodeRow_accepts_encode i

theorem wordWellFormed_iff_decode (w : Word) : wordWellFormed w = true ↔ ∃ i, decode w = .ok i := by
  unfold wordWellFormed
  rw [List.any_eq_true]
  constructor
  · rintro ⟨r, hr, h⟩
    obtain ⟨i, -, hw⟩ := (accepts_iff_decode hr w).1 h
    exact ⟨i, hw⟩
  · rintro ⟨i, hw⟩
    exact ⟨opcodeRow i, opcodeRow_mem i, (accepts_iff_decode (opcodeRow_mem i) w).2 ⟨i, rfl, hw⟩⟩

/-- Settles O3: a row is matched exactly by the words of its own commands, and a word decodes to one command only. -/
theorem decoderFollowsOpcodeTable : Obligations.DecoderFollowsOpcodeTable := by
  intro w
  refine ⟨(wordWellFormed_iff_decode w).symm, fun i hw r hr => ?_⟩
  rw [accepts_iff_decode hr]
  constructor
  · rintro ⟨j, rfl, hj⟩
    rw [Except.ok.inj (hj.symm.trans hw)]
  · intro hi
    exact ⟨i, hi, hw⟩

end Sys2Proof

/-! The statements of 40_primitive_ops.md: a pin write that fails, SETMODE, WRBUS and SETRST. -/

namespace Sys2Proof

/-! ### The data field of a command word -/

theorem setWidth_eq_ofFields (d : Byte) : d.setWidth 24 = ofFields 0x00 0x00 d := by
  apply BitVec.eq_of_toNat_eq
  rw [BitVec.toNat_setWidth, ofFields_toNat, Nat.mod_eq_of_lt (d.isLt.trans (by decide))]
  simp

theorem ofFields_or (o a d o' a' d' : Byte) :
    ofFields o a d ||| ofFields o' a' d' = ofFields (o ||| o') (a ||| a') (d ||| d') := by
  unfold ofFields
  simp only [← BitVec.or_append]

/-- A word is the word of its upper two fields with the data field in its low byte. -/
theorem ofFields_dataField (o a d : Byte) : ofFields o a d = ofFields o a 0x00 ||| d.setWidth 24 := by
  rw [setWidth_eq_ofFields, ofFields_or]
  simp

end Sys2Proof

namespace Sys2Proof.Machine

open Sys2Proof.Safety

/-! ### A command part of the way through its pin writes -/

/-- A running command whose writes `done` have succeeded and which has `rest` still to write. -/
def partway (done rest : List PinJob) (k : Nat) (b : UVal BusMode) (s : State) : State :=
  { spendPins s done.length with
    phase := .run (k + done.length) rest (beforeAll done b s.latches)
    latches := latchAll done s.latches
    trace := s.trace ++ done.map jobEvent
    dev := observeAll s.params.obsGranularity done b s.latches s.dev }

theorem partway_nil {s : State} {rest : List PinJob} {k : Nat} {b : UVal BusMode} (hp : s.phase = .run k rest b) :
    partway [] rest k b s = s := by
  simp [partway, spendPins, latchAll, observeAll, beforeAll, ← hp]

/-- The first write done, then the others. -/
theorem partway_commitPin (d : PinJob) (done rest : List PinJob) (k : Nat) (b : UVal BusMode) (s : State) :
    partway done rest (k + 1) (if d.closes then modeOf (setLatch s.latches d.pin (.known d.level)) else b)
      (commitPin d k (done ++ rest) b (drawPin s)) = partway (d :: done) rest k b s := by
  simp only [partway, spendPins, commitPin, drawPin, latchAll, observeAll, beforeAll, List.length_cons, List.drop_tail,
    List.map_cons, List.append_assoc, List.foldl_cons, List.singleton_append, Nat.add_assoc, Nat.add_comm 1]

theorem pinSteps_partway {rest : List PinJob} (hne : rest ≠ []) (done : List PinJob) :
    ∀ (k : Nat) (b : UVal BusMode) (s : State), s.phase = .run k (done ++ rest) b → PinsInfallible s done.length →
    pinSteps done.length s = partway done rest k b s := by
  induction done with
  | nil => intro k b s hp _; exact (partway_nil hp).symm
  | cons d done ih =>
    intro k b s hp hok
    rw [List.length_cons, pinSteps, pinStep_run s k d (done ++ rest) b hp, if_pos (hok 0 (by simp)), ← partway_commitPin]
    obtain ⟨j, todo, htodo⟩ := List.exists_cons_of_ne_nil (List.append_ne_nil_of_right_ne_nil done hne)
    refine ih (k + 1) _ _ (by rw [htodo]; rfl) fun i hi => ?_
    exact (pinAnswer_commitPin d k _ b s i).trans (hok (i + 1) (by simpa using hi))

/-- The latches after the first `m` writes of a list, none of them failed. -/
theorem latches_pinSteps {todo : List PinJob} {k m : Nat} {b : UVal BusMode} {s : State} (hp : s.phase = .run k todo b)
    (hne : todo ≠ []) (hm : m ≤ todo.length) (hok : PinsInfallible s m) :
    (pinSteps m s).latches = latchAll (todo.take m) s.latches := by
  obtain rfl | hlt := hm.eq_or_lt
  · rw [pinSteps_infallible todo k b s hp hok, commitAll_eq todo k b s hne, List.take_length]
  · have hlen : (todo.take m).length = m := List.length_take_of_le hm
    have hpart := pinSteps_partway (List.drop_eq_nil_iff.not.2 (Nat.not_le.2 hlt)) (todo.take m) k b s
      (by rw [hp, List.take_append_drop]) (by rwa [hlen])
    rw [hlen] at hpart
    rw [hpart]; rfl

/-! ### The cut -/

/-- What the first failing write, the one to `p` after the list `done`, leaves of a command accepted in `s`
(60_exceptions.md R114). -/
def cutAt (done : List PinJob) (p : Pin) (s : State) : State :=
  { spendPins s (done.length + 1) with
    latches := setLatch (latchAll done s.latches) p .U
    trace := s.trace ++ done.map jobEvent
    dev := observeAll s.params.obsGranularity done (modeOf s.latches) s.latches s.dev
    fault := some (.pinFault p) }

theorem cutAt_nil (p : Pin) (s : State) :
    cutAt [] p s = { spendPins s 1 with latches := setLatch s.latches p .U, fault := some (.pinFault p) } := by
  simp [cutAt, spendPins, latchAll, observeAll]

/-- A loaded command whose first failing write is the one after `done`: the cut of `pinSteps_cut` as a whole state, the device
image included. -/
theorem complete_load_cut {done rest : List PinJob} {j : PinJob} {s : State} (hidle : s.phase = .idle)
    (hok : ∀ k < done.length, pinAnswer s k = true) (hbad : pinAnswer s done.length = false) :
    complete (load (done ++ j :: rest) s) = cutAt done j.pin s := by
  have hpart := pinSteps_partway (List.cons_ne_nil j rest) done 0 _ (load (done ++ j :: rest) s) rfl hok
  have hanswer : pinAnswer (partway done (j :: rest) 0 (modeOf s.latches) (load (done ++ j :: rest) s)) 0 = false :=
    (pinAnswer_spendPins s done.length 0).trans hbad
  rw [complete_eq_pinSteps, load_phase, pending, List.length_append, List.length_cons, pinSteps_add, hpart, pinSteps,
    pinStep_run _ _ j rest _ rfl, if_neg (by simp [hanswer]), pinSteps_idle _ _ rfl]
  simp [cutAt, raisePinFault, raiseFault, drawPin, partway, spendPins, load, hidle, Nat.add_assoc]

theorem exec_cut {i : Instr} {s : State} {done rest : List PinJob} {j : PinJob} {n : Nat} (hr : Ready s)
    (hstart : start i s = load (done ++ j :: rest) (drawOrders s n)) (hok : ∀ k < done.length, pinAnswer s k = true)
    (hbad : pinAnswer s done.length = false) : exec i s = .next (cutAt done j.pin (drawOrders s n)) := by
  rw [exec_ready i s hr, hstart, complete_load_cut ((drawOrders_phase s n).trans hr.2)
    (fun k hk => (pinAnswer_drawOrders s n k).trans (hok k hk)) ((pinAnswer_drawOrders s n _).trans hbad)]

/-- The same for a command that draws no control order. -/
theorem exec_cut_plain {i : Instr} {s : State} {done rest : List PinJob} {j : PinJob} (hr : Ready s)
    (hstart : start i s = load (done ++ j :: rest) s) (hok : ∀ k < done.length, pinAnswer s k = true)
    (hbad : pinAnswer s done.length = false) : exec i s = .next (cutAt done j.pin s) := by
  have h := exec_cut (n := 0) hr (by rwa [drawOrders_zero]) hok hbad
  rwa [drawOrders_zero] at h

/-- Settles O19: an accepted command is a loaded list, and the list is cut. -/
theorem pinFailureCutsCommand : Obligations.PinFailureCutsCommand := by
  intro i s done rest j b hr hphase hok hbad
  obtain ⟨c, hs⟩ | ⟨jobs, n, hs, -⟩ := start_cases i s
  · simp [hs] at hphase
  · obtain ⟨rfl, -⟩ : jobs = done ++ j :: rest ∧ modeOf s.latches = b := by simpa [hs] using hphase
    refine ⟨_, exec_cut hr hs hok hbad, rfl, ?_, ?_, ?_, ?_, ?_, ?_⟩
    · exact (drawOrders_phase s n).trans hr.2
    · simp [cutAt]
    · simp [cutAt, latchAll]
    · exact drawOrders_params s n
    · exact drawOrders_commands s n
    · simp [cutAt, spendPins, Nat.add_assoc]

/-! ### A fault at acceptance -/

theorem exec_raiseFault {i : Instr} {s : State} {f : BlockFault} (hr : Ready s) (hstart : start i s = raiseFault f s) :
    exec i s = .next { s with fault := some f } := by
  have hidle : s.phase = .idle := hr.2
  rw [exec_ready i s hr, hstart]
  simp [complete, raiseFault, hidle]

/-- Settles O24. -/
theorem setModeReadFaultsUnsupported : Obligations.SetModeReadFaultsUnsupported :=
  ⟨rfl, fun _ hr => exec_raiseFault hr rfl⟩

/-! ### A mode change -/

theorem spendPins_drawOrders (s : State) (m n : Nat) : spendPins (drawOrders s n) m = drawOrders (spendPins s m) n := by
  by_cases h : s.params.ctlOrder = .any
  · rw [drawOrders_any s n h, drawOrders_any (spendPins s m) n h]; rfl
  · rw [drawOrders_fixed s n h, drawOrders_fixed (spendPins s m) n h]

theorem exec_setmode_infallible {m : BusMode} {s : State} (hm : m ≠ .read) (hr : Ready s) (hok : PinsInfallible s 2) :
    exec (setmode m) s = .next { drawOrders (spendPins s 2) 1 with
      latches := modeLatches s.latches m
      trace := s.trace ++ modeEvents m (controlOrder s 0)
      dev := observeAll s.params.obsGranularity (modeJobs m (controlOrder s 0)) (modeOf s.latches) s.latches s.dev } := by
  have h := exec_infallible (setmode m) s _ 1 hr (start_setmode m s hm) (modeJobs_ne_nil m _) (by simpa using hok)
  rwa [modeJobs_length, latchAll_modeJobs, modeJobs_events, spendPins_drawOrders] at h

/-- Settles O22: the two writes done, or cut at the first or at the second. -/
theorem setModeWritesBothControlLines : Obligations.SetModeWritesBothControlLines := by
  refine ⟨⟨rfl, rfl, rfl⟩, fun m s e0 e1 hm hr hevents => ?_, fun s h => ?_, fun s h => ?_, fun s o h => ?_⟩
  · have hjobs := (modeJobs_events m (controlOrder s 0)).trans hevents
    obtain ⟨j0, todo, hlist, rfl, htodo⟩ := List.map_eq_cons_iff.1 hjobs
    obtain ⟨j1, rfl, rfl⟩ := List.map_eq_singleton_iff.1 htodo
    have hstart := start_setmode m s hm
    rw [hlist] at hstart
    refine ⟨fun hok => ?_, fun hbad => ?_, fun hok hbad => ?_⟩
    · have hexec := exec_setmode_infallible hm hr hok
      rw [hevents] at hexec
      exact ⟨_, hexec⟩
    · have hexec := exec_cut (done := []) hr hstart (by simp) hbad
      rwa [cutAt_nil, spendPins_drawOrders, drawOrders_latches] at hexec
    · have hexec := exec_cut (done := [j0]) hr hstart (by simpa using hok) hbad
      rw [cutAt, spendPins_drawOrders, drawOrders_latches, drawOrders_trace] at hexec
      exact ⟨_, hexec⟩
  · simp [controlOrder, h]
  · simp [controlOrder, h]
  · simp [controlOrder, h]

/-- What a mode change leaves when its two writes succeed. -/
structure ModeChanged (m : BusMode) (s t : State) : Prop where
  ready : Ready t
  latches : t.latches = modeLatches s.latches m
  trace : t.trace.length = s.trace.length + 2
  answers : ∀ k, pinAnswer t k = pinAnswer s (2 + k)

theorem exists_modeChanged {m : BusMode} {s : State} (hm : m ≠ .read) (hr : Ready s) (hok : PinsInfallible s 2) :
    ∃ t, exec (setmode m) s = .next t ∧ ModeChanged m s t := by
  obtain ⟨hfault, hidle⟩ := hr
  refine ⟨_, exec_setmode_infallible hm ⟨hfault, hidle⟩ hok, ⟨?_, ?_⟩, rfl, ?_, fun k => ?_⟩
  · exact (drawOrders_fault _ 1).trans hfault
  · exact (drawOrders_phase _ 1).trans hidle
  · simp [← modeJobs_events]
  · calc
      _ = pinAnswer (drawOrders (spendPins s 2) 1) k := pinAnswer_congr _ _ rfl rfl k
      _ = pinAnswer (spendPins s 2) k := pinAnswer_drawOrders _ 1 k
      _ = pinAnswer s (2 + k) := pinAnswer_spendPins s 2 k

/-- Settles O23: two mode changes one after the other. -/
theorem setModeEndsInItsMode : Obligations.SetModeEndsInItsMode := by
  intro m s hm hr hok
  obtain ⟨t, ht, hst⟩ := exists_modeChanged hm hr fun k hk => hok k (by omega)
  obtain ⟨u, hu, htu⟩ := exists_modeChanged hm hst.ready fun k hk => (hst.answers k).trans (hok (2 + k) (by omega))
  have hfault : t.fault = s.fault := hst.ready.1.trans hr.1.symm
  have hlatches : u.latches = t.latches := by rw [htu.latches, hst.latches]; rfl
  refine ⟨t, u, ht, hu, ?_, ?_, ?_, ?_, ?_, hfault, hst.trace, hlatches, htu.trace⟩ <;> rw [hst.latches]
  · exact modeOf_modeLatches s.latches m
  · rfl
  · rfl
  · exact busOf_modeLatches s.latches m
  · rfl

/-! ### The mode between the two control-line writes, from a known mode -/

/-- The control lines hold one line of the new mode and one of the old. -/
theorem midMode_of_known {l : Latches} {old : BusMode} (hl : modeOf l = .known old) (m : BusMode) (o : ControlOrder) :
    midMode l m o = match o with
      | .bdirFirst => modeOfLevels (levels m).1 (levels old).2
      | .bc1First => modeOfLevels (levels old).1 (levels m).2 := by
  obtain ⟨hbdir, hbc1⟩ := (modeOf_eq_known_iff l old).1 hl
  cases o with
  | bdirFirst => simp only [midMode, modeOf, hbc1]
  | bc1First => simp only [midMode, modeOf, hbdir]

/-- The first pin write of a mode change leaves the mode in between. -/
theorem modeOf_pinStep_start_setmode {m : BusMode} {s : State} (hm : m ≠ .read) (hok : pinAnswer s 0 = true) :
    modeOf (pinStep (start (setmode m) s)).latches = midMode s.latches m (controlOrder s 0) := by
  have hok' : PinsInfallible (drawOrders s 1) 1 := fun k hk => by
    obtain rfl : k = 0 := by omega
    rwa [pinAnswer_drawOrders]
  have hlatches := latches_pinSteps (m := 1) (load_phase (modeJobs m (controlOrder s 0)) (drawOrders s 1))
    (modeJobs_ne_nil m _) (by simp) hok'
  rw [load_latches, drawOrders_latches] at hlatches
  rw [start_setmode m s hm]
  refine (congrArg modeOf hlatches).trans ?_
  cases controlOrder s 0 <;> rfl

/-- Settles O36: the mode in between, row by row. -/
theorem controlLineTransients : Obligations.ControlLineTransients := by
  intro s old new o between hr hok hold horder hrow
  have hnew : new ≠ .read := by rintro rfl; simp at hrow
  rw [modeOf_pinStep_start_setmode hnew hok, midMode_of_known hold, horder]
  simp only [List.mem_cons, Prod.mk.injEq, List.not_mem_nil, or_false] at hrow
  rcases hrow with h | h | h | h | h | h | h | h | h | h | h | h <;> obtain ⟨rfl, rfl, rfl, rfl⟩ := h <;> rfl

/-! ### A bus write -/

/-- The write of data line `i` by `WRBUS v`. -/
def busJob (v : Byte) (i : Nat) : PinJob := plainJob (dataPin i) (lvl (v.getLsbD i))

theorem busJobs_eq_map (v : Byte) : busJobs v = (List.range 8).map (busJob v) := rfl

theorem take_busJobs (v : Byte) {i : Nat} (hi : i ≤ 8) : (busJobs v).take i = (List.range i).map (busJob v) := by
  rw [busJobs_eq_map, ← List.map_take, List.take_range, min_eq_left hi]

theorem busJobs_eq_append (v : Byte) {i : Nat} (hi : i < 8) :
    busJobs v = (busJobs v).take i ++ busJob v i :: (busJobs v).drop (i + 1) := by
  have hlen : i < (busJobs v).length := hi
  have hget : (busJobs v)[i] = busJob v i := by simp [busJobs_eq_map]
  rw [← hget, List.cons_getElem_drop_succ, List.take_append_drop]

theorem dataPin_inj {i j : Nat} (hi : i < 8) (hj : j < 8) : dataPin i = dataPin j ↔ i = j := by
  have h : ∀ i < 8, ∀ j < 8, dataPin i = dataPin j → i = j := by decide
  exact ⟨h i hi j hj, congrArg dataPin⟩

theorem getLatch_setLatch_dataPin (l : Latches) (x : Latch) {i j : Nat} (hi : i < 8) (hj : j < 8) :
    getLatch (setLatch l (dataPin i) x) (dataPin j) = if j = i then x else getLatch l (dataPin j) := by
  rw [getLatch_setLatch]
  simp only [dataPin_inj hj hi]

/-- After the writes of the first `i` lines these hold the new bits, the others what they held. -/
theorem getLatch_busWrites (v : Byte) (l : Latches) {j : Nat} (hj : j < 8) (i : Nat) (hi : i ≤ 8) :
    getLatch (latchAll ((busJobs v).take i) l) (dataPin j) =
      if j < i then .known (lvl (v.getLsbD j)) else getLatch l (dataPin j) := by
  rw [take_busJobs v hi]
  induction i with
  | zero => rfl
  | succ i ih =>
    rw [List.range_succ, List.map_append, latchAll_append]
    refine (getLatch_setLatch_dataPin _ _ hi hj).trans ?_
    rw [ih (by omega)]
    obtain hlt | rfl | hgt := Nat.lt_trichotomy j i
    · rw [if_neg hlt.ne, if_pos hlt, if_pos (by omega)]
    · rw [if_pos rfl, if_pos (by omega)]; rfl
    · rw [if_neg hgt.ne', if_neg (by omega), if_neg (by omega)]

/-- Settles O26: the eight writes done, or cut at line `i`. -/
theorem writeBusDrivesEveryDataLine : Obligations.WriteBusDrivesEveryDataLine := by
  refine ⟨fun v => ?_, fun v s hr => ⟨fun hok => ?_, fun i hi hok hbad => ?_⟩⟩
  · exact ofFields_dataField 0x01 0x00 v
  · rw [exec_infallible_plain (.wrbus v) s (busJobs v) hr rfl (List.cons_ne_nil _ _) hok]
    rfl
  · have hlen : ((busJobs v).take i).length = i := List.length_take_of_le hi.le
    have hexec := exec_cut_plain (i := .wrbus v) hr (congrArg (load · s) (busJobs_eq_append v hi)) (by rwa [hlen])
      (by rwa [hlen])
    have hdev := atEveryCut_busJobs (g := s.params.obsGranularity) (P := (· = s.dev)) (b := modeOf s.latches)
      (l := s.latches) v rfl i
    obtain ⟨-, -, -, -, hframe, -⟩ := latchFrameOfCommands _ _ _ hexec
    obtain ⟨hbdir, hbc1, hrst, -⟩ := hframe v rfl
    have hline (j : Nat) (hj : j < 8) :
        getLatch (setLatch (latchAll ((busJobs v).take i) s.latches) (dataPin i) .U) (dataPin j) =
          if j = i then .U else if j < i then .known (lvl (v.getLsbD j)) else getLatch s.latches (dataPin j) := by
      rw [getLatch_setLatch_dataPin _ _ hi hj, getLatch_busWrites v _ hj i hi.le]
    refine ⟨setLatch (latchAll ((busJobs v).take i) s.latches) (dataPin i) .U, ?_, fun j hj => ?_, ?_,
      fun j hj hij => ?_, hbdir, hbc1, hrst⟩
    · rw [hexec, cutAt, hlen, hdev, List.map_take, busJobs_events]
      rfl
    · rw [hline j (by omega), if_neg (by omega), if_pos hj]
    · rw [hline i hi, if_pos rfl]
    · rw [hline j hj, if_neg (by omega), if_neg (by omega)]

theorem lvl_levelBit (l : Level) : lvl (levelBit l)[0] = l := by cases l <;> rfl

/-- A byte is on the bus exactly when each data line holds its bit (10_state.md R11, 30_encoding.md R52). -/
theorem busOf_eq_known_iff (l : Latches) (w : Byte) :
    busOf l = .known w ↔ ∀ j < 8, getLatch l (dataPin j) = .known (lvl (w.getLsbD j)) := by
  constructor
  · intro h
    unfold busOf at h
    split at h
    · next h0 h1 h2 h3 h4 h5 h6 h7 =>
      obtain rfl := UVal.known.inj h
      intro j hj
      simp only [byteOfLevels, BitVec.getLsbD_append]
      interval_cases j <;> simp [dataPin, getLatch, lvl_levelBit, h0, h1, h2, h3, h4, h5, h6, h7]
    · cases h
  · intro h
    exact busOf_bits l w (h 0 (by decide)) (h 1 (by decide)) (h 2 (by decide)) (h 3 (by decide)) (h 4 (by decide))
      (h 5 (by decide)) (h 6 (by decide)) (h 7 (by decide))

/-- The bits of the byte with the low `n` bits of `v` under the high bits of `w`. -/
theorem getLsbD_mixedByte (v w : Byte) (n j : Nat) (hj : j < 8) :
    ((w &&& ~~~ BitVec.ofNat 8 (2 ^ n - 1)) ||| (v &&& BitVec.ofNat 8 (2 ^ n - 1))).getLsbD j =
      if j < n then v.getLsbD j else w.getLsbD j := by
  simp only [BitVec.getLsbD_or, BitVec.getLsbD_and, BitVec.getLsbD_not, BitVec.getLsbD_ofNat,
    Nat.testBit_two_pow_sub_one]
  by_cases h : j < n <;> simp [h, hj]

/-- Settles O27, bit by bit. -/
theorem busPassesThroughMixedBytes : Obligations.BusPassesThroughMixedBytes := by
  intro v w s i hr hok hw hi
  have hlatches := latches_pinSteps (m := i + 1) (load_phase (busJobs v) s) (List.cons_ne_nil _ _) hi fun k hk =>
    hok k (by omega)
  rw [busOf_eq_known_iff] at hw ⊢
  intro j hj
  refine (congrArg (getLatch · (dataPin j)) hlatches).trans ?_
  rw [getLsbD_mixedByte v w _ j hj, load_latches, getLatch_busWrites v _ hj _ hi, hw j hj]
  split <;> rfl

/-! ### The reset line -/

/-- What `SETRST l` leaves when its write succeeds. -/
def afterSetrst (l : Level) (s : State) : State :=
  { spendPins s 1 with
    latches := { s.latches with rst := .known l }
    trace := s.trace ++ [⟨.rst, l⟩]
    dev := if l = .L then devReset s.dev else s.dev }

theorem exec_setrst_infallible {l : Level} {s : State} (hr : Ready s) (hline : s.params.hasResetLine = true)
    (hok : PinsInfallible s 1) : exec (.setrst l) s = .next (afterSetrst l s) := by
  rw [exec_infallible_plain (.setrst l) s _ hr (startSetrst_of_line hline l) (List.cons_ne_nil _ _) hok]
  cases l <;> rfl

/-- Settles O28: no line, the one write done, or the one write failed. -/
theorem setResetWritesResetLine : Obligations.SetResetWritesResetLine := by
  refine ⟨fun l => by cases l <;> rfl, fun l s hr => ⟨fun hline => ?_, exec_setrst_infallible hr, fun hline hbad => ?_⟩⟩
  · exact exec_raiseFault hr (startSetrst_of_no_line (by simp [hline]) l)
  · rw [exec_cut_plain (i := .setrst l) (done := []) hr (startSetrst_of_line hline l) (by simp) hbad, cutAt_nil]
    rfl

/-- Settles O29: the write of `L` resets the image, the write of `H` leaves it. -/
theorem deviceResetLeavesBlockAlone : Obligations.DeviceResetLeavesBlockAlone := by
  intro s hr hline hok
  have hanswer : pinAnswer (afterSetrst .L s) 0 = true :=
    (pinAnswer_congr (spendPins s 1) _ rfl rfl 0).trans ((pinAnswer_spendPins s 1 0).trans (hok 1 (by omega)))
  refine ⟨_, _, exec_setrst_infallible hr hline fun k hk => hok k (by omega),
    exec_setrst_infallible (s := afterSetrst .L s) hr hline fun k hk => ?_, ?_, fun a => rfl⟩
  · rwa [Nat.lt_one_iff.1 hk]
  · simp [afterSetrst, spendPins, devReset, Nat.add_assoc]

/-! ### The order of the control-line writes -/

/-- Two lists of pin writes of one length that leave the same latches and, at phase grain, the same device image. -/
structure SameEnd (jobs jobs' : List PinJob) : Prop where
  length : jobs'.length = jobs.length
  latches : ∀ l, latchAll jobs' l = latchAll jobs l
  dev : ∀ b l d, observeAll .phase jobs' b l d = observeAll .phase jobs b l d

theorem SameEnd.refl (jobs : List PinJob) : SameEnd jobs jobs := ⟨rfl, fun _ => rfl, fun _ _ _ => rfl⟩

theorem sameEnd_modeJobs (m : BusMode) (o o' : ControlOrder) : SameEnd (modeJobs m o) (modeJobs m o') where
  length := by simp
  latches l := by simp only [latchAll_modeJobs]
  dev b l d := by simp only [observeAll_modeJobs_phase]

theorem sameEnd_acceptedRegJobs (a v : Byte) (s s' : State) : SameEnd (acceptedRegJobs a v s) (acceptedRegJobs a v s') where
  length := by simp
  latches l := by simp only [acceptedRegJobs, latchAll_regJobs]
  dev b l d := by simp only [acceptedRegJobs, observeAll_regJobs_phase]

/-- A block with other choices of order listed. -/
def withOrders (s : State) (os : List ControlOrder) : State := { s with orderChoices := os }

/-- With other choices of order a command faults at acceptance as before, or is accepted with a list that ends the same. -/
theorem start_withOrders (i : Instr) (s : State) (os : List ControlOrder) :
    (∃ f, start i s = raiseFault f s ∧ start i (withOrders s os) = raiseFault f (withOrders s os)) ∨
    ∃ jobs jobs' n, start i s = load jobs (drawOrders s n)
      ∧ start i (withOrders s os) = load jobs' (drawOrders (withOrders s os) n)
      ∧ jobs.length = pinWrites i ∧ jobs ≠ [] ∧ SameEnd jobs jobs' := by
  have mode (m : BusMode) : ∃ jobs jobs' n, startSetMode m s = load jobs (drawOrders s n)
      ∧ startSetMode m (withOrders s os) = load jobs' (drawOrders (withOrders s os) n)
      ∧ jobs.length = 2 ∧ jobs ≠ [] ∧ SameEnd jobs jobs' :=
    ⟨_, _, 1, rfl, rfl, modeJobs_length m _, modeJobs_ne_nil m _, sameEnd_modeJobs m _ _⟩
  cases i with
  | setmodeRead => exact .inl ⟨_, rfl, rfl⟩
  | rdreg a => exact .inl ⟨_, rfl, rfl⟩
  | setmodeInactive => exact .inr (mode .inactive)
  | setmodeWrite => exact .inr (mode .write)
  | setmodeAddress => exact .inr (mode .address)
  | wrbus v =>
    refine .inr ⟨busJobs v, busJobs v, 0, ?_, ?_, rfl, List.cons_ne_nil _ _, .refl _⟩ <;> rw [drawOrders_zero] <;> rfl
  | wrreg a v =>
    exact .inr ⟨_, _, 4, rfl, rfl, acceptedRegJobs_length a v s, acceptedRegJobs_ne_nil a v s,
      sameEnd_acceptedRegJobs a v s (withOrders s os)⟩
  | setrst l =>
    by_cases hline : s.params.hasResetLine = true
    · refine .inr ⟨[plainJob .rst l], [plainJob .rst l], 0, ?_, ?_, rfl, List.cons_ne_nil _ _, .refl _⟩ <;>
        rw [drawOrders_zero]
      · exact startSetrst_of_line hline l
      · exact startSetrst_of_line (s := withOrders s os) hline l
    · exact .inl ⟨_, startSetrst_of_no_line hline l, startSetrst_of_no_line (s := withOrders s os) hline l⟩

/-- Settles O41: the lists fixed at acceptance end the same. -/
theorem controlOrderDoesNotChangeTheEnd : Obligations.ControlOrderDoesNotChangeTheEnd := by
  intro i s os hr hphase hok
  obtain ⟨f, hs, hu⟩ | ⟨jobs, jobs', n, hs, hu, hlen, hne, hsame⟩ := start_withOrders i s os
  · exact ⟨_, _, exec_raiseFault hr hs, exec_raiseFault (s := withOrders s os) hr hu, rfl, rfl, rfl, fun _ => rfl⟩
  · have hne' : jobs' ≠ [] := List.ne_nil_of_length_pos (hsame.length ▸ List.length_pos_of_ne_nil hne)
    have hok' : PinsInfallible (withOrders s os) jobs'.length := by rwa [hsame.length, hlen]
    have hdev : observeAll (withOrders s os).params.obsGranularity jobs' (modeOf s.latches) s.latches s.dev
        = observeAll s.params.obsGranularity jobs (modeOf s.latches) s.latches s.dev := by
      rw [show (withOrders s os).params.obsGranularity = .phase from hphase, hphase]
      exact hsame.dev _ _ _
    refine ⟨_, _, exec_infallible i s jobs n hr hs hne (by rwa [hlen]),
      exec_infallible i (withOrders s os) jobs' n hr hu hne' hok', hsame.latches _, ?_,
      congrArg Dev.hazard hdev, fun _ => hdev⟩
    exact (drawOrders_fault (withOrders s os) n).trans (drawOrders_fault s n).symm

end Sys2Proof.Machine

/-! The statements of 41_register_access.md: WRREG as its sequence of pin writes, whole, cut, and as six primitive commands, and
RDREG. -/

namespace Sys2Proof

/-! ### The address field of a command word -/

theorem setWidth_shiftLeft_eq_ofFields (a : Byte) : a.setWidth 24 <<< 8 = ofFields 0x00 a 0x00 := by
  apply BitVec.eq_of_toNat_eq
  have := a.isLt
  have hzero : (0x00 : Byte).toNat = 0 := rfl
  rw [BitVec.toNat_shiftLeft, BitVec.toNat_setWidth, ofFields_toNat, Nat.shiftLeft_eq, hzero]
  omega

/-- A word is the word of its other two fields with the address field above the data field. -/
theorem ofFields_addressField (o a d : Byte) : ofFields o a d = ofFields o 0x00 d ||| a.setWidth 24 <<< 8 := by
  rw [setWidth_shiftLeft_eq_ofFields, ofFields_or]
  simp

end Sys2Proof

namespace Sys2Proof.Machine

open Sys2Proof.Safety

/-! ### A register read -/

/-- Settles O25. -/
theorem registerReadFaultsUnsupported : Obligations.RegisterReadFaultsUnsupported :=
  ⟨fun a => ofFields_addressField 0x03 a 0x00, fun _ _ hr => exec_raiseFault hr rfl⟩

/-! ### A whole register write -/

/-- The fault register holds nothing, or a failed pin. -/
def OnlyPinFault (s : State) : Prop := s.fault = none ∨ ∃ p, s.fault = some (.pinFault p)

theorem onlyPinFault_complete {s : State} (h : OnlyPinFault s) : OnlyPinFault (complete s) :=
  complete_keeps OnlyPinFault
    (pinStep_keeps OnlyPinFault (fun _ h => h) (fun _ _ _ _ _ _ h => h) fun _ _ j _ _ _ _ => .inr ⟨j.pin, rfl⟩) s h

theorem acceptedRegJobs_events (a v : Byte) (s : State) :
    (acceptedRegJobs a v s).map jobEvent = registerEvents (BitVec.ofNat 8 (min a.toNat 15)) v
      (controlOrder s 0) (controlOrder s 1) (controlOrder s 2) (controlOrder s 3) :=
  regJobs_events a v _ _ _ _

/-- What a list of pin writes leaves when all of them succeed, with `n` orders drawn for it. -/
def afterWrites (jobs : List PinJob) (n : Nat) (s : State) : State :=
  { spendPins (drawOrders s n) jobs.length with
    latches := latchAll jobs s.latches
    trace := s.trace ++ jobs.map jobEvent
    dev := observeAll s.params.obsGranularity jobs (modeOf s.latches) s.latches s.dev }

theorem exec_wrreg_afterWrites (a v : Byte) {s : State} (hr : Ready s) (hok : PinsInfallible s 24) :
    exec (.wrreg a v) s = .next (afterWrites (acceptedRegJobs a v s) 4 s) :=
  exec_infallible (.wrreg a v) s _ 4 hr rfl (acceptedRegJobs_ne_nil a v s) (by simpa using hok)

/-- Settles O30: the loaded list of 24 writes, all done; whatever the answers, a pin write raises only its own fault. -/
theorem writeRegisterIsTheSequence : Obligations.WriteRegisterIsTheSequence := by
  refine ⟨fun a v => ?_, fun a v s hr => ⟨fun hok => ?_, _, exec_ready (.wrreg a v) s hr, ?_⟩⟩
  · calc
      ofFields 0x02 a v = ofFields 0x02 a 0x00 ||| v.setWidth 24 := ofFields_dataField 0x02 a v
      _ = ofFields 0x02 0x00 0x00 ||| a.setWidth 24 <<< 8 ||| v.setWidth 24 := by rw [← ofFields_addressField]
  · have hexec := exec_wrreg_afterWrites a v hr hok
    rw [afterWrites, acceptedRegJobs_length, spendPins_drawOrders, acceptedRegJobs_events, acceptedRegJobs,
      latchAll_regJobs] at hexec
    exact ⟨_, hexec⟩
  · exact onlyPinFault_complete (.inl ((drawOrders_fault s 4).trans hr.1))

/-! ### A register write cut in a bus phase -/

theorem modeOf_setLatch_dataPin {p : Pin} (hp : p ∈ dataPins) (l : Latches) (x : Latch) :
    modeOf (setLatch l p x) = modeOf l := by
  refine modeOf_congr _ _ (getLatch_setLatch_other l p .bdir x ?_) (getLatch_setLatch_other l p .bc1 x ?_) <;>
    rintro rfl <;> simp [dataPins] at hp

/-- Writes of data lines leave the mode alone. -/
theorem modeOf_latchAll_dataPins (jobs : List PinJob) : ∀ l, (∀ j ∈ jobs, j.pin ∈ dataPins) →
    modeOf (latchAll jobs l) = modeOf l := by
  induction jobs with
  | nil => intros; rfl
  | cons j jobs ih =>
    intro l hpins
    obtain ⟨hj, hjobs⟩ := List.forall_mem_cons.1 hpins
    exact (ih _ hjobs).trans (modeOf_setLatch_dataPin hj l _)

/-- A bus write after a change to mode `m`, cut at any of its eight writes, leaves the control lines in `m`. -/
theorem modeOf_cut_in_busJobs {jobs before after : List PinJob} {m : BusMode} {o : ControlOrder} {w : Byte}
    (hjobs : jobs = before ++ modeJobs m o ++ busJobs w ++ after) {k : Nat} (hlo : before.length + 2 ≤ k)
    (hhi : k < before.length + 10) {j : PinJob} (hj : jobs[k]? = some j) (l : Latches) :
    modeOf (setLatch (latchAll (jobs.take k) l) j.pin .U) = .known m := by
  have hlen : (before ++ modeJobs m o).length = before.length + 2 := by simp
  obtain ⟨i, rfl⟩ := Nat.exists_eq_add_of_le (hlen.le.trans hlo)
  have hi : i < (busJobs w).length := by rw [busJobs_length]; omega
  have hbus : (busJobs w)[i]? = some j := by
    rwa [hjobs, List.append_assoc, List.getElem?_append_right (Nat.le_add_right _ _), Nat.add_sub_cancel_left,
      List.getElem?_append_left hi] at hj
  have htake : jobs.take ((before ++ modeJobs m o).length + i) = before ++ modeJobs m o ++ (busJobs w).take i := by
    rw [hjobs, List.append_assoc, List.take_length_add_append, List.take_append_of_le_length hi.le]
  have hmode : modeOf (latchAll (before ++ modeJobs m o) l) = .known m := by
    rw [latchAll_append, latchAll_modeJobs, modeOf_modeLatches]
  rw [modeOf_setLatch_dataPin (busJobs_pins w j (List.mem_of_getElem? hbus)), htake, latchAll_append,
    modeOf_latchAll_dataPins _ _ fun d hd => busJobs_pins w d (List.mem_of_mem_take hd), hmode]

/-- Settles O31: the list is cut before its write `k`; in 2..9 that write is one of the address byte's, in 14..21 one of the
value's. -/
theorem cutRegisterWriteStaysInItsMode : Obligations.CutRegisterWriteStaysInItsMode := by
  rintro a v s k _ e hr rfl he hok hbad
  rw [← acceptedRegJobs_events, List.getElem?_map, Option.map_eq_some_iff] at he
  obtain ⟨j, hj, rfl⟩ := he
  obtain ⟨hk, hget⟩ := List.getElem?_eq_some_iff.1 hj
  have hlen : ((acceptedRegJobs a v s).take k).length = k := List.length_take_of_le hk.le
  have hsplit : acceptedRegJobs a v s
      = (acceptedRegJobs a v s).take k ++ j :: (acceptedRegJobs a v s).drop (k + 1) := by
    rw [← hget, List.cons_getElem_drop_succ, List.take_append_drop]
  have hexec := exec_cut (i := .wrreg a v) hr (congrArg (load · (drawOrders s 4)) hsplit) (by rwa [hlen]) (by rwa [hlen])
  refine ⟨_, hexec, rfl, getLatch_setLatch_same _ _ _, ?_, fun hlo hhi => ?_, fun hlo hhi => ?_⟩
  · rw [cutAt, drawOrders_trace, ← acceptedRegJobs_events, List.map_take]
  · exact modeOf_cut_in_busJobs (before := []) (regJobs_eq_append a v _ _ _ _) hlo (Nat.lt_succ_of_le hhi) hj _
  · have hbefore (o1 o2 : ControlOrder) :
        (modeJobs .address o1 ++ busJobs (addressByte a) ++ modeJobs .inactive o2).length = 12 := by simp
    exact modeOf_cut_in_busJobs rfl (by rwa [hbefore]) (by rw [hbefore]; omega) hj _

/-! ### The six primitive commands of a register write -/

theorem controlOrder_drawOrders (s : State) (n k : Nat) : controlOrder (drawOrders s n) k = controlOrder s (n + k) := by
  by_cases h : s.params.ctlOrder = .any
  · simp [controlOrder, drawOrders_any s n h, h, Nat.add_assoc]
  · rw [drawOrders_fixed s n h]
    unfold controlOrder
    split
    · rfl
    · rfl
    · contradiction

/-- From any latches, a list of writes ends outside a mode change: what it takes for the mode before the next one is the mode its
latches show. -/
def EndsBetweenChanges (jobs : List PinJob) : Prop := ∀ l, beforeAll jobs (modeOf l) l = modeOf (latchAll jobs l)

theorem EndsBetweenChanges.append {xs ys : List PinJob} (hx : EndsBetweenChanges xs) (hy : EndsBetweenChanges ys) :
    EndsBetweenChanges (xs ++ ys) := fun l => by
  rw [beforeAll_append, latchAll_append, hx l, hy (latchAll xs l)]

theorem endsBetweenChanges_modeJobs (m : BusMode) (o : ControlOrder) : EndsBetweenChanges (modeJobs m o) := fun l => by
  rw [beforeAll_modeJobs, latchAll_modeJobs, modeOf_modeLatches]

theorem endsBetweenChanges_busJobs (v : Byte) : EndsBetweenChanges (busJobs v) := fun _ => rfl

/-- Writes done after writes done are one list of writes done. -/
theorem afterWrites_append {xs : List PinJob} (hx : EndsBetweenChanges xs) (ys : List PinJob) (m n : Nat) (s : State) :
    afterWrites ys n (afterWrites xs m s) = afterWrites (xs ++ ys) (m + n) s := by
  by_cases h : s.params.ctlOrder = .any <;>
    simp [afterWrites, spendPins, drawOrders, h, latchAll_append, observeAll_append, hx s.latches, Nat.add_assoc]

theorem controlOrder_afterWrites (xs : List PinJob) (n : Nat) (s : State) (k : Nat) :
    controlOrder (afterWrites xs n s) k = controlOrder s (n + k) :=
  controlOrder_drawOrders s n k

theorem pinAnswer_afterWrites (xs : List PinJob) (n : Nat) (s : State) (k : Nat) :
    pinAnswer (afterWrites xs n s) k = pinAnswer s (xs.length + k) :=
  (pinAnswer_spendPins (drawOrders s n) xs.length k).trans (pinAnswer_drawOrders s n _)

section Continued

variable {s : State} {xs : List PinJob} {N : Nat}

theorem ready_afterWrites (hr : Ready s) (xs : List PinJob) (n : Nat) : Ready (afterWrites xs n s) :=
  ⟨(drawOrders_fault s n).trans hr.1, (drawOrders_phase s n).trans hr.2⟩

/-- A command whose writes come after others that have all succeeded. -/
theorem exec_after_afterWrites {i : Instr} {ys : List PinJob} {m n : Nat} (hr : Ready s) (hok : PinsInfallible s N)
    (hx : EndsBetweenChanges xs) (hstart : start i (afterWrites xs m s) = load ys (drawOrders (afterWrites xs m s) n))
    (hne : ys ≠ []) (hlen : xs.length + ys.length ≤ N) :
    exec i (afterWrites xs m s) = .next (afterWrites (xs ++ ys) (m + n) s) := by
  rw [← afterWrites_append hx]
  refine exec_infallible i _ ys n (ready_afterWrites hr xs m) hstart hne fun k hk => ?_
  rw [pinAnswer_afterWrites]
  exact hok _ (by omega)

theorem exec_setmode_after_afterWrites (m : BusMode) (n : Nat) (hm : m ≠ .read) (hr : Ready s) (hok : PinsInfallible s N)
    (hx : EndsBetweenChanges xs) (hlen : xs.length + 2 ≤ N) :
    exec (setmode m) (afterWrites xs n s) = .next (afterWrites (xs ++ modeJobs m (controlOrder s n)) (n + 1) s) :=
  exec_after_afterWrites hr hok hx ((start_setmode m _ hm).trans (by rw [controlOrder_afterWrites]; rfl))
    (modeJobs_ne_nil m _) (by simpa using hlen)

theorem exec_wrbus_after_afterWrites (v : Byte) (n : Nat) (hr : Ready s) (hok : PinsInfallible s N)
    (hx : EndsBetweenChanges xs) (hlen : xs.length + 8 ≤ N) :
    exec (.wrbus v) (afterWrites xs n s) = .next (afterWrites (xs ++ busJobs v) n s) :=
  exec_after_afterWrites (n := 0) hr hok hx (by rw [drawOrders_zero]; rfl) (List.cons_ne_nil _ _) hlen

end Continued

/-- Settles O33: each primitive command adds its writes to those done, and the six lists are the list of the register write. -/
theorem writeRegisterEqualsSixPrimitives : Obligations.WriteRegisterEqualsSixPrimitives := by
  intro a v s hr hok
  have h1 := endsBetweenChanges_modeJobs .address (controlOrder s 0)
  have h2 := h1.append (endsBetweenChanges_busJobs (addressByte a))
  have h3 := h2.append (endsBetweenChanges_modeJobs .inactive (controlOrder s 1))
  have h4 := h3.append (endsBetweenChanges_modeJobs .write (controlOrder s 2))
  have h5 := h4.append (endsBetweenChanges_busJobs v)
  rw [← addressByte_eq]
  exact ⟨_, _, _, _, _, _,
    exec_infallible (setmode .address) s _ 1 hr rfl (modeJobs_ne_nil _ _) fun k hk => hok k (hk.trans_le (by simp)),
    exec_wrbus_after_afterWrites _ 1 hr hok h1 (by simp),
    exec_setmode_after_afterWrites .inactive 1 (by decide) hr hok h2 (by simp),
    exec_setmode_after_afterWrites .write 2 (by decide) hr hok h3 (by simp),
    exec_wrbus_after_afterWrites v 3 hr hok h4 (by simp),
    exec_setmode_after_afterWrites .inactive 3 (by decide) hr hok h5 (by simp),
    exec_wrreg_afterWrites a v hr hok⟩

end Sys2Proof.Machine

/-! The statements of 42_facade_macros.md: the register writes of each pseudo-command, the note frequency over the reals, and
the all-or-nothing rule of an expansion. -/

namespace Sys2Proof.Machine

open Sys2Proof.Safety

/-! ### The bytes and the register addresses -/

/-- Masking 16 bits to a byte is the remainder by 256. -/
theorem toNat_maskedByte (q : BitVec 16) : ((q &&& 0x00FF).setWidth 8).toNat = q.toNat % 256 := by
  have hmask : (q &&& 0x00FF).toNat = q.toNat % 256 := Nat.and_two_pow_sub_one_eq_mod q.toNat 8
  rw [BitVec.toNat_setWidth, hmask, Nat.mod_mod]

theorem toNat_lowByte (p : BitVec 16) : (lowByte p).toNat = p.toNat % 256 := toNat_maskedByte p

theorem toNat_highByte (p : BitVec 16) : (highByte p).toNat = p.toNat / 256 := by
  have hbyte : (highByte p).toNat = (p >>> 8).toNat % 256 := toNat_maskedByte (p >>> 8)
  rw [hbyte, BitVec.toNat_ushiftRight, Nat.shiftRight_eq_div_pow]
  omega

/-- The 5-bit mask of a level and of the noise frequency. -/
theorem toNat_and_0x1F (x : Byte) : (x &&& 0x1F).toNat = x.toNat % 32 :=
  Nat.and_two_pow_sub_one_eq_mod x.toNat 5

theorem toNat_toneFineReg (ch : Channel) : (toneFineReg ch).toNat = 2 * channelIndex ch := by cases ch <;> rfl

theorem toNat_toneRoughReg (ch : Channel) : (toneRoughReg ch).toNat = 2 * channelIndex ch + 1 := by cases ch <;> rfl

theorem toNat_levelReg (ch : Channel) : (levelReg ch).toNat = 8 + channelIndex ch := by cases ch <;> rfl

/-! ### The tone -/

/-- Settles O44: the two byte operations are the remainder and the quotient by 256. -/
theorem toneWritesFineThenRough : Obligations.ToneWritesFineThenRough := fun _ ch p =>
  ⟨_, _, rfl, toNat_toneFineReg ch, toNat_lowByte p, toNat_toneRoughReg ch, toNat_highByte p⟩

theorem expandToneHz_zero (clock : Nat) (ch : Channel) :
    expandToneHz clock ch 0 = .error (.contractViolation .zeroFrequency) := rfl

theorem expandToneHz_overflow {clock f : Nat} (ch : Channel) (hf : 0 < f) (hp : 4095 < clock / (16 * f)) :
    expandToneHz clock ch f = .error (.contractViolation .periodOverflow) := by
  rw [expandToneHz, if_neg hf.ne', if_pos hp]

theorem expandToneHz_of_le {clock f : Nat} (ch : Channel) (hf : 0 < f) (hp : clock / (16 * f) ≤ 4095) :
    expandToneHz clock ch f = .ok (expandTone ch (BitVec.ofNat 16 (clock / (16 * f)))) := by
  rw [expandToneHz, if_neg hf.ne', if_neg hp.not_gt]

/-- Settles O45: a quotient of at most 4095 is its own 16-bit period. -/
theorem toneHzDividesTheClock : Obligations.ToneHzDividesTheClock := by
  intro clock ch f
  refine ⟨?_, expandToneHz_overflow ch, fun hf hp => ⟨_, ?_, expandToneHz_of_le ch hf hp⟩⟩
  · rintro rfl
    exact expandToneHz_zero clock ch
  · rw [BitVec.toNat_ofNat, Nat.mod_eq_of_lt (by omega)]

/-! ### Level, noise and mixer -/

/-- Settles O46: the mask `0x1F` is the remainder by 32. -/
theorem levelNoiseMixerWrites : Obligations.LevelNoiseMixerWrites := fun _ ch x =>
  ⟨⟨_, rfl, toNat_levelReg ch, toNat_and_0x1F x⟩, ⟨_, rfl, rfl, toNat_and_0x1F x⟩, _, rfl, rfl, rfl⟩

/-! ### The envelope -/

/-- The three guards of the hertz divider are one. -/
theorem hertzDivider_eq (clock h : Nat) : hertzDivider clock h =
    if h = 0 ∨ 65535 < clock / (256 * h) ∨ clock / (256 * h) = 0 then 1 else clock / (256 * h) := by
  simp only [hertzDivider, ite_or]

/-- The guards keep a divider within 16 bits, so `asEp` cuts nothing off. -/
theorem hertzDivider_lt (clock h : Nat) : hertzDivider clock h < 2 ^ 16 := by
  rw [hertzDivider_eq]
  split <;> omega

theorem bpmDivider_lt (clock b : Nat) : bpmDivider clock b < 2 ^ 16 := by
  rw [bpmDivider]
  split <;> omega

theorem toNat_asEp_hertz (clock : Nat) (h : BitVec 16) :
    (asEp clock (.hertz h)).toNat = hertzDivider clock h.toNat :=
  Nat.mod_eq_of_lt (hertzDivider_lt clock h.toNat)

theorem toNat_asEp_beatsPerMinute (clock : Nat) (b : BitVec 16) :
    (asEp clock (.beatsPerMinute b)).toNat = bpmDivider clock b.toNat :=
  Nat.mod_eq_of_lt (bpmDivider_lt clock b.toNat)

/-- Settles O47: no guarded divider is cut to 16 bits. -/
theorem envelopeDividerIsGuarded : Obligations.EnvelopeDividerIsGuarded := by
  intro clock h b n
  refine ⟨?_, ?_, rfl⟩
  · rw [toNat_asEp_hertz, hertzDivider_eq]
  · rw [toNat_asEp_beatsPerMinute, toNat_asEp_hertz]
    rfl

/-- Settles O48: a 16-bit divider is its two bytes. -/
theorem envelopeWrites : Obligations.EnvelopeWrites := by
  intro clock ef s x
  refine ⟨⟨_, _, rfl, rfl, rfl, ?_⟩, rfl, rfl, rfl, rfl, rfl⟩
  rw [toNat_highByte, toNat_lowByte, Nat.div_add_mod']

/-! ### The note frequency -/

/-- The search finds the greatest number that fits, where it is in reach. -/
theorem searchBits_eq {fits : Nat → Bool} {N : Nat} (hfits : ∀ n, fits n = true ↔ n ≤ N) :
    ∀ b acc, acc ≤ N → N < acc + 2 ^ b → searchBits fits b acc = N
  | 0, acc, hle, hlt => by rw [searchBits]; omega
  | b + 1, acc, hle, hlt => by
    rw [searchBits]
    by_cases h : acc + 2 ^ b ≤ N
    · rw [if_pos ((hfits _).2 h)]
      exact searchBits_eq hfits b _ h (by omega)
    · rw [if_neg (mt (hfits _).1 h)]
      exact searchBits_eq hfits b _ hle (by omega)

/-- The frequency `x` octaves above A4, in hertz (42_facade_macros.md R104). -/
noncomputable def hzAbove (x : ℝ) : ℝ := 440 * 2 ^ x

theorem hzAbove_pos (x : ℝ) : 0 < hzAbove x := by
  rw [hzAbove]
  positivity

theorem hzAbove_mono : Monotone hzAbove := fun _ _ h => by
  rw [hzAbove, hzAbove]
  gcongr
  exact one_le_two

theorem continuous_hzAbove : Continuous hzAbove :=
  continuous_const.mul (Real.continuous_const_rpow two_ne_zero)

/-- `2^(p/e)` to the power `e`, with the power of 2 of a negative `p` on the other side. -/
theorem rpow_div_pow_mul {e : Nat} (he : e ≠ 0) (p : Int) :
    ((2 : ℝ) ^ ((p : ℝ) / e)) ^ e * 2 ^ (-p).toNat = 2 ^ p.toNat := by
  have hsum : (p : ℝ) + (-p).toNat = p.toNat := by exact_mod_cast (by omega : p + (-p).toNat = p.toNat)
  calc ((2 : ℝ) ^ ((p : ℝ) / e)) ^ e * 2 ^ (-p).toNat
      = 2 ^ (p : ℝ) * 2 ^ ((-p).toNat : ℝ) := by
        rw [← Real.rpow_mul_natCast zero_le_two, div_mul_cancel₀ _ (Nat.cast_ne_zero.2 he), Real.rpow_natCast]
    _ = 2 ^ p.toNat := by rw [← Real.rpow_add zero_lt_two, hsum, Real.rpow_natCast]

/-- The integer comparison is the real one, with both sides taken to the power `e` and multiplied by `2^(-p)` or `2^p`. -/
theorem roundsUpTo_iff {p : Int} {e : Nat} (he : e ≠ 0) (n : Nat) :
    roundsUpTo p e n = true ↔ (n : ℝ) ≤ hzAbove (p / e) + 1 / 2 := by
  rcases n.eq_zero_or_pos with rfl | hn
  · simp only [roundsUpTo, beq_self_eq_true, Bool.true_or, true_iff]
    exact Nat.cast_zero.trans_le (add_pos (hzAbove_pos _) one_half_pos).le
  have hcast : ((2 * n - 1 : ℕ) : ℝ) = 2 * n - 1 := by rw [Nat.cast_sub (by omega)]; norm_num
  calc roundsUpTo p e n = true
      ↔ ((2 * n - 1) ^ e * 2 ^ (-p).toNat : ℕ) ≤ 880 ^ e * 2 ^ p.toNat := by simp [roundsUpTo, hn.ne']
    _ ↔ (2 * n - 1 : ℝ) ^ e * 2 ^ (-p).toNat ≤ (880 * 2 ^ ((p : ℝ) / e)) ^ e * 2 ^ (-p).toNat := by
        rw [mul_pow, mul_assoc, rpow_div_pow_mul he, ← hcast]; exact_mod_cast Iff.rfl
    _ ↔ (2 * n - 1 : ℝ) ≤ 880 * 2 ^ ((p : ℝ) / e) := by
        rw [mul_le_mul_iff_left₀ (by positivity),
          pow_le_pow_iff_left₀ (hcast ▸ Nat.cast_nonneg _) (by positivity) he]
    _ ↔ (n : ℝ) ≤ hzAbove (p / e) + 1 / 2 := by rw [hzAbove]; constructor <;> intro h <;> linarith

/-- The search range of `roundedPower` is wide enough. -/
theorem hzAbove_lt_searchRange (p : Int) (e : Nat) : hzAbove (p / e) + 1 / 2 < 2 ^ (11 + p.toNat / e) := by
  have hexp : (p : ℝ) / e ≤ (p.toNat / e + 1 : ℕ) :=
    calc (p : ℝ) / e ≤ (p.toNat : ℝ) / e := by gcongr; exact_mod_cast p.self_le_toNat
      _ ≤ (p.toNat / e + 1 : ℕ) := by
        rw [Nat.cast_add_one, ← Nat.floor_div_eq_div (K := ℝ)]; exact (Nat.lt_floor_add_one _).le
  have hpow : (2 : ℝ) ^ ((p : ℝ) / e) ≤ 2 ^ (p.toNat / e) * 2 := by
    rw [← pow_succ, ← Real.rpow_natCast]
    exact Real.rpow_le_rpow_of_exponent_le one_le_two hexp
  have hone : (1 : ℝ) ≤ 2 ^ (p.toNat / e) := one_le_pow₀ one_le_two
  rw [hzAbove, pow_add]
  linarith

/-- What the search finds is the floor of the power plus one half, which is the rounded power. -/
theorem roundedPower_eq_round (p : Int) {e : Nat} (he : e ≠ 0) :
    (roundedPower p e : ℤ) = round (hzAbove (p / e)) := by
  have hpos : (0 : ℝ) ≤ hzAbove (p / e) + 1 / 2 := (add_pos (hzAbove_pos _) one_half_pos).le
  have hfits (n : ℕ) : roundsUpTo p e n = true ↔ n ≤ ⌊hzAbove (p / e) + 1 / 2⌋₊ := by
    rw [roundsUpTo_iff he, Nat.le_floor_iff hpos]
  have hrange : ⌊hzAbove (p / e) + 1 / 2⌋₊ < 0 + 2 ^ (11 + p.toNat / e) := by
    rw [zero_add, Nat.floor_lt hpos]
    exact_mod_cast hzAbove_lt_searchRange p e
  rw [roundedPower, searchBits_eq hfits _ _ (Nat.zero_le _) hrange, round_eq, Int.natCast_floor_eq_floor hpos]

/-- Settles O49: the exponent over the common denominator is the note's distance over 12. -/
theorem noteFrequencyIsRoundedRealPower : Obligations.NoteFrequencyIsRoundedRealPower := by
  intro n
  have hden : (n.transpose.den : ℝ) ≠ 0 := Nat.cast_ne_zero.2 n.transpose.den_nz
  have hexp : ((noteSemitones n * n.transpose.den + n.transpose.num : ℤ) : ℝ) / (12 * n.transpose.den : ℕ)
      = (noteDistance n : ℝ) / 12 := by
    rw [noteDistance, Rat.cast_add, Rat.cast_intCast, Rat.cast_def n.transpose]
    push_cast
    field_simp
  rw [noteHz, roundedPower_eq_round _ (mul_ne_zero (by decide) n.transpose.den_nz), hexp]
  rfl

/-- Rounding is constant on an interval to the right of each point, so a continuous monotone function rounds the same at some
rational as at a given real. -/
theorem exists_rat_round_eq {g : ℝ → ℝ} (hcont : Continuous g) (hmono : Monotone g) (x : ℝ) :
    ∃ q : ℚ, round (g q) = round (g x) := by
  obtain ⟨hle, hlt⟩ := Int.floor_eq_iff.1 (round_eq (g x)).symm
  have hlt' : g x < round (g x) + 1 / 2 := by linarith
  obtain ⟨y, hxy, hy⟩ := ((hcont.tendsto x).eventually_lt_const hlt').exists_gt
  obtain ⟨q, hxq, hqy⟩ := exists_rat_btwn hxy
  refine ⟨q, ?_⟩
  rw [round_eq, Int.floor_eq_iff]
  constructor
  · linarith [hmono hxq.le]
  · linarith [hmono hqy.le]

/-- `PLAYNOTE` is `TONEHZ` of the note's frequency (42_facade_macros.md R105). -/
theorem expand_playNote_eq_toneHz (clock : Nat) (ch : Channel) (n : Note) :
    expand clock (.playNote ch n) = expand clock (.toneHz ch (noteHz n)) := rfl

/-- The frequency of a note with a real transposition is unique. -/
theorem isNoteHz_unique {n : NoteOf ℝ} {f g : Nat} (hf : isNoteHz n f) (hg : isNoteHz n g) : f = g :=
  Int.ofNat_inj.1 (hf.trans hg.symm)

/-- A real transposition can be replaced by a rational one without changing the frequency. -/
theorem exists_rat_transpose (n : NoteOf ℝ) :
    ∃ q : ℚ, isNoteHz n (noteHz ⟨n.letter, n.octave, n.accidental, q⟩) := by
  have hcont : Continuous fun t : ℝ => hzAbove ((noteSemitones n + t) / 12) :=
    continuous_hzAbove.comp ((continuous_const.add continuous_id).div_const 12)
  have hmono : Monotone fun t : ℝ => hzAbove ((noteSemitones n + t) / 12) := fun _ _ h => hzAbove_mono (by gcongr)
  obtain ⟨q, hq⟩ := exists_rat_round_eq hcont hmono n.transpose
  refine ⟨q, (noteFrequencyIsRoundedRealPower _).trans (Eq.trans ?_ hq)⟩
  rw [noteDistance, Rat.cast_add, Rat.cast_intCast]
  rfl

/-- Settles O50: the rational transposition of `exists_rat_transpose`. -/
theorem everyRealNoteIsPlayed : Obligations.EveryRealNoteIsPlayed := by
  intro n
  obtain ⟨q, hq⟩ := exists_rat_transpose n
  refine ⟨⟨n.letter, n.octave, n.accidental, q⟩, rfl, rfl, rfl, hq, fun clock ch f hf => ?_⟩
  rw [expand_playNote_eq_toneHz, isNoteHz_unique hq hf]

/-! ### All or nothing -/

section TakePseudo

variable (run : Instr → State → Host.Outcome State Fault Refusal)

theorem takeCommand_pseudo_error {s : State} {p : Pseudo} {f : BlockFault} (h : expand s.params.clockHz p = .error f) :
    takeCommand run (.pseudo p) s = .next (raiseFault f s) := by
  simp only [takeCommand, h]

theorem takeCommand_pseudo_ok {s : State} {p : Pseudo} {ws : List RegWrite} (h : expand s.params.clockHz p = .ok ws) :
    takeCommand run (.pseudo p) s = .next { s with commands := ws.map writeCommand ++ s.commands } := by
  simp only [takeCommand, h]

end TakePseudo

/-- In an idle block a fault changes the fault register alone. -/
theorem raiseFault_of_idle (f : BlockFault) {s : State} (h : Idle s) : raiseFault f s = { s with fault := some f } := by
  rw [raiseFault, ← show s.phase = .idle from h]

/-- Settles O51: the ready block takes the pseudo-command, and its phase is idle already. -/
theorem expansionIsAllOrNothing : Obligations.ExpansionIsAllOrNothing := by
  intro s p rest hr hc
  have hstep : step s = takeCommand exec (.pseudo p) { s with commands := rest } := portStep_ready exec hr hc
  refine ⟨fun f hf => ?_, fun ws hws => hstep.trans (takeCommand_pseudo_ok exec hws)⟩
  calc step s = .next (raiseFault f { s with commands := rest }) := hstep.trans (takeCommand_pseudo_error exec hf)
    _ = .next { s with commands := rest, fault := some f } := by
      rw [raiseFault_of_idle]; exact hr.2

end Sys2Proof.Machine

/-! The statements of 60_exceptions.md: which commands raise which fault, the faulted block, and the clamped address. -/

namespace Sys2Proof.Machine

open Sys2Proof.Safety

/-! ### The faulted block -/

section Faulted

variable {s : State} {f : BlockFault}

theorem portStep_faulted (run : Instr → State → Host.Outcome State Fault Refusal) (hf : s.fault = some f) :
    portStep run s = .fault .blockFaulted := by
  simp only [portStep, hf]

theorem exec_faulted (i : Instr) (hf : s.fault = some f) : exec i s = .fault .blockFaulted := by
  rw [exec_eq_command]
  simp only [command, hf]

end Faulted

/-- Settles O8: the port and the gate of a command ask for the fault register first (60_exceptions.md R117). -/
theorem faultedBlockIsStuck : Obligations.FaultedBlockIsStuck := fun _ _ hf =>
  ⟨portStep_faulted exec hf, portStep_faulted _ hf, fun i => exec_faulted i hf⟩

/-- Settles O9. -/
theorem faultCodesAreTheTable : Obligations.FaultCodesAreTheTable :=
  ⟨fun _ => rfl, fun _ => rfl, fun _ => rfl, fun _ => rfl⟩

/-! ### The clamped address -/

theorem clampAddr_of_gt {a : Byte} (ha : 15 < a.toNat) : clampAddr a = clampAddr 15 :=
  BitVec.eq_of_toNat_eq (by rw [clampAddr_toNat, clampAddr_toNat, Nat.min_eq_right ha.le]; rfl)

/-- A register write depends on its address through the clamp only. -/
theorem exec_wrreg_congr {a b : Byte} (h : clampAddr a = clampAddr b) (v : Byte) (s : State) :
    exec (.wrreg a v) s = exec (.wrreg b v) s := by
  have hjobs : regJobs a v = regJobs b v := by unfold regJobs addressByte; rw [h]
  have hstart : start (.wrreg a v) = start (.wrreg b v) := by
    funext s
    simp only [start, startWrreg, hjobs]
  rw [exec_eq_command, exec_eq_command, hstart]

/-- Settles O34: the clamp saturates, and a register write sees nothing else of its address. -/
theorem outOfRangeAddressIsClamped : Obligations.OutOfRangeAddressIsClamped :=
  ⟨clampAddr_toNat, fun _ v s ha => exec_wrreg_congr (clampAddr_of_gt ha) v s⟩

/-! ### The fault of a command -/

/-- The rows of `Unsupported` for the commands of the block (60_exceptions.md R110). -/
def UnsupportedRow (i : Instr) (hasResetLine : Bool) (f : BlockFault) : Prop :=
  (i = .setmodeRead ∧ f = .unsupported .readMode) ∨ ((∃ a, i = .rdreg a) ∧ f = .unsupported .registerRead)
    ∨ ((∃ l, i = .setrst l) ∧ hasResetLine = false ∧ f = .unsupported .noResetLine)

/-- The first failing write of a command accepted in `s` is entry `k` of its list (40_primitive_ops.md R70). -/
def FirstPinFailure (i : Instr) (s t : State) (f : BlockFault) : Prop :=
  ∃ k todo b j, (start i s).phase = .run 0 todo b ∧ todo.length = pinWrites i ∧ todo[k]? = some j
    ∧ f = .pinFault j.pin ∧ (∀ m < k, pinAnswer s m = true) ∧ pinAnswer s k = false
    ∧ t.trace = s.trace ++ (todo.take k).map jobEvent

theorem load_ne_raiseFault {jobs : List PinJob} {f : BlockFault} {s u : State} : load jobs u ≠ raiseFault f s := fun h =>
  Phase.noConfusion (congrArg State.phase h)

theorem raiseFault_inj {f g : BlockFault} {s : State} (h : raiseFault f s = raiseFault g s) : f = g :=
  Option.some.inj (congrArg State.fault h)

/-- A command whose acceptance is a fault is of a row of `Unsupported`. -/
theorem unsupportedRow_of_start {i : Instr} {s : State} {f : BlockFault} (h : start i s = raiseFault f s) :
    UnsupportedRow i s.params.hasResetLine f := by
  cases i with
  | setmodeRead => exact .inl ⟨rfl, (raiseFault_inj h).symm⟩
  | rdreg a => exact .inr (.inl ⟨⟨a, rfl⟩, (raiseFault_inj h).symm⟩)
  | setrst l =>
    rw [start, startSetrst] at h
    split at h
    · exact absurd h load_ne_raiseFault
    · next hline => exact .inr (.inr ⟨⟨l, rfl⟩, by simpa using hline, (raiseFault_inj h).symm⟩)
  | setmodeInactive | setmodeWrite | setmodeAddress | wrbus | wrreg => exact absurd h load_ne_raiseFault

/-- What a command that ends faulted did: it was refused at acceptance, or a pin write of its list failed. -/
theorem exec_fault_cases {i : Instr} {s t : State} {f : BlockFault} (h : exec i s = .next t) (hf : t.fault = some f) :
    (faultCode f = 1 ∧ UnsupportedRow i s.params.hasResetLine f ∧ t = raiseFault f s)
      ∨ (faultCode f = 2 ∧ FirstPinFailure i s t f) := by
  obtain ⟨hnone, -, rfl⟩ := (exec_eq_next i s t).1 h
  obtain ⟨c, hs⟩ | ⟨jobs, n, hs, hne, hlen, -⟩ := start_cases i s
  · obtain rfl : BlockFault.unsupported c = f := Option.some.inj (by rw [hs] at hf; exact hf)
    exact .inl ⟨rfl, unsupportedRow_of_start hs, by rw [hs]; rfl⟩
  · obtain ⟨k, -, -, htrace, -, ⟨-, hfault, -⟩ | ⟨j, hj, hok, hbad, hfault, -⟩⟩ :=
      pinSteps_outcome jobs 0 _ (load jobs (drawOrders s n)) hne rfl
    · have hclear : (complete (load jobs (drawOrders s n))).fault = s.fault := hfault.trans (drawOrders_fault s n)
      rw [hs, hclear, hnone] at hf
      exact absurd hf (by simp)
    · obtain rfl : f = .pinFault j.pin := Option.some.inj ((hs ▸ hf).symm.trans hfault)
      have hanswer : ∀ m, pinAnswer (load jobs (drawOrders s n)) m = pinAnswer s m := pinAnswer_drawOrders s n
      refine .inr ⟨rfl, k, jobs, _, j, by rw [hs, load_phase], hlen, hj, rfl, fun m hm => ?_, ?_, ?_⟩
      · rw [← hanswer]; exact hok m hm
      · rw [← hanswer]; exact hbad
      · rw [hs]; exact htrace.trans (by rw [load_trace, drawOrders_trace])

theorem faultCode_of_exec {i : Instr} {s t : State} {f : BlockFault} (h : exec i s = .next t) (hf : t.fault = some f) :
    faultCode f = 1 ∨ faultCode f = 2 :=
  (exec_fault_cases h hf).imp And.left And.left

/-! ### The fault of a word -/

theorem takeCommand_illegal (run : Instr → State → Host.Outcome State Fault Refusal) {w : Word}
    (hw : wordWellFormed w = false) (s : State) :
    takeCommand run (.word w) s = .next (raiseFault (.illegalCommand w) s) := by
  cases hd : decode w with
  | ok i => exact absurd ((wordWellFormed_iff_decode w).2 ⟨i, hd⟩) (by simp [hw])
  | error e => simp only [takeCommand, hd]

theorem step_illegal {s : State} {w : Word} {rest : List HostCommand} (hr : Ready s) (hc : s.commands = .word w :: rest)
    (hw : wordWellFormed w = false) : step s = .next { s with commands := rest, fault := some (.illegalCommand w) } :=
  calc step s = takeCommand exec (.word w) { s with commands := rest } := portStep_ready exec hr hc
    _ = .next (raiseFault (.illegalCommand w) { s with commands := rest }) := takeCommand_illegal exec hw _
    _ = .next { s with commands := rest, fault := some (.illegalCommand w) } := by
      rw [raiseFault_of_idle]; exact hr.2

/-- Settles O4: the decoder accepts no such word, and the codes of the commands' own faults are 1 and 2. -/
theorem illegalWordRaisesIllegalCommand : Obligations.IllegalWordRaisesIllegalCommand := by
  refine ⟨fun _ _ _ => step_illegal, fun i s t w h hf => ?_⟩
  have hcode := faultCode_of_exec h hf
  simp [faultCode] at hcode

/-- A step that takes a word ends with code 3 for an illegal word, else with a fault of the decoded command. -/
theorem faultCode_of_word {s t : State} {w : Word} {rest : List HostCommand} {f : BlockFault} (hidle : s.phase = .idle)
    (hc : s.commands = .word w :: rest) (h : step s = .next t) (hf : t.fault = some f) :
    (wordWellFormed w = false ∧ faultCode f = 3) ∨ (wordWellFormed w = true ∧ (faultCode f = 1 ∨ faultCode f = 2)) := by
  have hr : Ready s := ⟨(step_cases s t h).1, hidle⟩
  cases hw : wordWellFormed w with
  | false =>
    rw [step_illegal hr hc hw] at h
    obtain rfl := Host.Outcome.next.inj h
    obtain rfl := Option.some.inj hf
    exact .inl ⟨rfl, rfl⟩
  | true =>
    obtain ⟨i, hi⟩ := (wordWellFormed_iff_decode w).1 hw
    rw [stepRunsDecodedCommand s w rest i hr hc hi] at h
    exact .inr ⟨rfl, faultCode_of_exec h hf⟩

/-! ### The fault of a pseudo-command -/

/-- When the computation of `TONEHZ` faults, and how (42_facade_macros.md R93). -/
theorem expandToneHz_eq_error (clock : Nat) (ch : Channel) (g : Nat) (f : BlockFault) :
    expandToneHz clock ch g = .error f ↔ (f = .contractViolation .zeroFrequency ∧ g = 0)
      ∨ (f = .contractViolation .periodOverflow ∧ 0 < g ∧ 4095 < clock / (16 * g)) := by
  obtain rfl | hg := g.eq_zero_or_pos
  · rw [expandToneHz_zero]
    simp [eq_comm]
  · by_cases hp : 4095 < clock / (16 * g)
    · rw [expandToneHz_overflow ch hg hp]
      simp [hg, hg.ne', hp, eq_comm]
    · rw [expandToneHz_of_le ch hg (Nat.not_lt.1 hp)]
      simp [hg.ne', hp]

/-- `SETENVSHAPE` faults for the raw envelope only (42_facade_macros.md R99, R100). -/
theorem expandSetEnvShape_eq_error (es : EnvShape) (f : BlockFault) :
    expandSetEnvShape es = .error f ↔ f = .unsupported .rawEnvelope ∧ es = .rawEnvelope := by
  cases es <;> simp [expandSetEnvShape, shapeCode, eq_comm]

/-- The faults of a pseudo-command's computation (60_exceptions.md R110). -/
theorem expand_eq_error (clock : Nat) (p : Pseudo) (f : BlockFault) :
    expand clock p = .error f ↔ (f = .unsupported .rawEnvelope ∧ p = .setEnvShape .rawEnvelope)
      ∨ (f = .contractViolation .zeroFrequency ∧ ∃ ch, p = .toneHz ch 0 ∨ ∃ n, p = .playNote ch n ∧ noteHz n = 0)
      ∨ (f = .contractViolation .periodOverflow
        ∧ ∃ ch g, 0 < g ∧ 4095 < clock / (16 * g) ∧ (p = .toneHz ch g ∨ ∃ n, p = .playNote ch n ∧ noteHz n = g)) := by
  cases p with
  | toneHz ch g => rw [expand, expandToneHz_eq_error]; simp
  | playNote ch n => rw [expand_playNote_eq_toneHz, expand, expandToneHz_eq_error]; simp
  | setEnvShape es => rw [expand, expandSetEnvShape_eq_error]; simp
  | tone | volume | setNoise | setMixer | setEnvFreq => simp [expand]

/-- Settles O10: by what faults a command, a word and a pseudo-command's computation. -/
theorem faultsAreRaisedAsTheTableSays : Obligations.FaultsAreRaisedAsTheTableSays := by
  refine ⟨fun i s t f h hf => ?_, fun s t w rest f hidle hc h hf => ?_, expand_eq_error⟩
  · obtain ⟨hcode, hrow, rfl⟩ | hpin := exec_fault_cases h hf
    · exact .inl ⟨hcode, rfl, rfl, hrow⟩
    · exact .inr hpin
  · obtain ⟨hw, hcode⟩ | ⟨hw, hcode | hcode⟩ := faultCode_of_word hidle hc h hf <;> simp [hw, hcode]

end Sys2Proof.Machine
